-- ==== Sys2Proof/Word.lean ====
section
/-! DEFINITION. The word types of BBE (spec/00_scope.md R7, R8): every quantity is an unsigned bit
vector of the width the spec gives it. -/

namespace Sys2Proof

/-- A command word or a response word, 32 bits (R7, R65, R76). -/
abbrev Word := BitVec 32

/-- One band-memory location, 8 bits (R7, R42). -/
abbrev Byte := BitVec 8

/-- One canvas cell or one pixel operand, 1 bit (R7, R59). -/
abbrev Bit := BitVec 1

/-- A 16-bit register: `W`, `H`, `OW`, `OH`, `BANDW0..4` (R7). -/
abbrev Half := BitVec 16

/-- A column word, 24 bits (R7, R61). -/
abbrev Col := BitVec 24

end Sys2Proof
end

