-- ==== Sys2Proof/Syntax.lean ====
section
/-! DEFINITION. The commands of BBE as syntax: one constructor per row of spec/opcode_table.json
(spec/30_encoding.md R70), and the register names their operands select (spec/10_state.md R14). -/

namespace Sys2Proof

/-- The registers `WRREG` accepts, numbers 1 to 5 (R14, R72). -/
inductive WritableReg where
  | cfg
  | w
  | h
  | ow
  | oh
  deriving DecidableEq, Repr

/-- The thirteen numbered registers `x[0..12]`, which `RDREG` accepts (R14, R72). -/
inductive RegName where
  | status
  | cfg
  | w
  | h
  | ow
  | oh
  | errcmd
  | loadcnt
  | bandw (b : Fin 5)
  deriving DecidableEq, Repr

/-- The nine commands (R70). -/
inductive Instr where
  /-- `NOP` (R83) -/
  | nop
  /-- `WRREG reg, imm16` (R84) -/
  | wrreg (reg : WritableReg) (imm16 : Half)
  /-- `RDREG reg` (R86) -/
  | rdreg (reg : RegName)
  /-- `CALC` (R90) -/
  | calcDims
  /-- `BEGIN` (R93) -/
  | beginLoad
  /-- `PUSH p` (R94) -/
  | push (p : Bit)
  /-- `ENCODE` (R99) -/
  | encode
  /-- `RDBAND b, i` (R117): `b` is a 3-bit field and `i` an 18-bit field (R69) -/
  | rdband (b : BitVec 3) (i : BitVec 18)
  /-- `SRST` (R120) -/
  | srst
  deriving DecidableEq, Repr

end Sys2Proof
end

