-- ==== Sys2Proof/WellFormed.lean ====
section
/-! DEFINITION. Well-formed instructions: the terms of `Instr` that a legal word spells
(spec/30_encoding.md R70, R73). The types already bound every operand but one. -/

namespace Sys2Proof

/-- A `WRREG` to `CFG` must have operand bits 15 to 4 clear (R25, R70, R75); every other operand is
bounded by its type. -/
def Instr.wf : Instr → Bool
  | .nop => true
  | .wrreg .cfg imm16 => imm16.extractLsb' 4 12 == 0
  | .wrreg .w _ => true
  | .wrreg .h _ => true
  | .wrreg .ow _ => true
  | .wrreg .oh _ => true
  | .rdreg _ => true
  | .calcDims => true
  | .beginLoad => true
  | .push _ => true
  | .encode => true
  | .rdband _ _ => true
  | .srst => true

end Sys2Proof
end

