-- ==== Sys2Proof/Decode.lean ====
section
/-! DEFINITION. Decoding and encoding of command words (spec/30_encoding.md R65 to R75, R82). Decoding
is total on 32-bit words and rejects by name; it looks at nothing but the word (R82). A word is
presented whole on the command port, so there is no byte order (R65). -/

namespace Sys2Proof

/-- Why a word is illegal (R73 to R75). Raised by `decode`; the machine turns each of them into
`Fault(E_ILLCMD)`, or discards the word in mode FAULT (R124). -/
inductive IllegalWord where
  /-- `op` is 0x09 to 0xFF (R74) -/
  | reservedOpcode
  /-- format N with a non-zero operand field (R66, R75) -/
  | operandNotZero
  /-- `WRREG` names a register that is not 1 to 5 (R72, R84) -/
  | registerNotWritable
  /-- `WRREG` to `CFG` with one of `imm16[15:4]` set (R25, R75) -/
  | cfgBitsNotZero
  /-- `RDREG` names a register above 12 (R72, R86) -/
  | noSuchRegister
  /-- `RDREG` with `imm16 ≠ 0` (R67, R75) -/
  | immediateNotZero
  /-- `PUSH` with one of `cmd[23:1]` set (R68, R75) -/
  | pixelBitsNotZero
  /-- `RDBAND` with one of `cmd[23:21]` set (R69, R75) -/
  | bandBitsNotZero
  deriving DecidableEq, Repr

/-! ## Operand fields (R65 to R69, R71) -/

/-- `op = cmd[31:24]` (R65). -/
def opField (cmd : Word) : BitVec 8 := cmd.extractLsb' 24 8

/-- `cmd[23:0]`, the operand field (R65). -/
def operandField (cmd : Word) : BitVec 24 := cmd.extractLsb' 0 24

/-- `reg = cmd[23:16]` (R67, R71). -/
def regField (cmd : Word) : BitVec 8 := cmd.extractLsb' 16 8

/-- `imm16 = cmd[15:0]` (R67, R71). -/
def immField (cmd : Word) : Half := cmd.extractLsb' 0 16

/-- `p = cmd[0]` (R68, R71). -/
def pixelField (cmd : Word) : Bit := cmd.extractLsb' 0 1

/-- `b = cmd[20:18]` (R69, R71). -/
def bandField (cmd : Word) : BitVec 3 := cmd.extractLsb' 18 3

/-- `i = cmd[17:0]` (R69, R71). -/
def indexField (cmd : Word) : BitVec 18 := cmd.extractLsb' 0 18

/-! ## Register numbers (R14) -/

/-- The number of a writable register (R14). -/
def WritableReg.num : WritableReg → BitVec 8
  | .cfg => 1
  | .w => 2
  | .h => 3
  | .ow => 4
  | .oh => 5

/-- The number of a register (R14). -/
def RegName.num : RegName → BitVec 8
  | .status => 0
  | .cfg => 1
  | .w => 2
  | .h => 3
  | .ow => 4
  | .oh => 5
  | .errcmd => 6
  | .loadcnt => 7
  | .bandw b => 8 + BitVec.ofNat 8 b.val

/-- The register `WRREG` selects with a number (R72). -/
def writableReg? (n : BitVec 8) : Option WritableReg :=
  if n = 1 then some .cfg
  else if n = 2 then some .w
  else if n = 3 then some .h
  else if n = 4 then some .ow
  else if n = 5 then some .oh
  else none

/-- The register `RDREG` selects with a number (R72). -/
def regName? (n : BitVec 8) : Option RegName :=
  if n = 0 then some .status
  else if n = 1 then some .cfg
  else if n = 2 then some .w
  else if n = 3 then some .h
  else if n = 4 then some .ow
  else if n = 5 then some .oh
  else if n = 6 then some .errcmd
  else if n = 7 then some .loadcnt
  else if n = 8 then some (.bandw 0)
  else if n = 9 then some (.bandw 1)
  else if n = 10 then some (.bandw 2)
  else if n = 11 then some (.bandw 3)
  else if n = 12 then some (.bandw 4)
  else none

/-! ## Decoding -/

/-- Format N (R66): the operand field must be zero. -/
def decodeN (cmd : Word) (i : Instr) : Except IllegalWord Instr :=
  if operandField cmd = 0 then .ok i else .error .operandNotZero

/-- `WRREG` (R67, R70, R72). -/
def decodeWrreg (cmd : Word) : Except IllegalWord Instr :=
  match writableReg? (regField cmd) with
  | none => .error .registerNotWritable
  | some r =>
    if (Instr.wrreg r (immField cmd)).wf then .ok (.wrreg r (immField cmd))
    else .error .cfgBitsNotZero

/-- `RDREG` (R67, R70, R72). -/
def decodeRdreg (cmd : Word) : Except IllegalWord Instr :=
  match regName? (regField cmd) with
  | none => .error .noSuchRegister
  | some r => if immField cmd = 0 then .ok (.rdreg r) else .error .immediateNotZero

/-- `PUSH` (R68, R70). -/
def decodePush (cmd : Word) : Except IllegalWord Instr :=
  if cmd.extractLsb' 1 23 = 0 then .ok (.push (pixelField cmd)) else .error .pixelBitsNotZero

/-- `RDBAND` (R69, R70). -/
def decodeRdband (cmd : Word) : Except IllegalWord Instr :=
  if cmd.extractLsb' 21 3 = 0 then .ok (.rdband (bandField cmd) (indexField cmd))
  else .error .bandBitsNotZero

/-- The command a word spells, or why it is illegal (R70, R73, R74). -/
def decode (cmd : Word) : Except IllegalWord Instr :=
  if opField cmd = 0x00 then decodeN cmd .nop
  else if opField cmd = 0x01 then decodeWrreg cmd
  else if opField cmd = 0x02 then decodeRdreg cmd
  else if opField cmd = 0x03 then decodeN cmd .calcDims
  else if opField cmd = 0x04 then decodeN cmd .beginLoad
  else if opField cmd = 0x05 then decodePush cmd
  else if opField cmd = 0x06 then decodeN cmd .encode
  else if opField cmd = 0x07 then decodeRdband cmd
  else if opField cmd = 0x08 then decodeN cmd .srst
  else .error .reservedOpcode

/-- `Legal(cmd)` as R73 writes it: the predicate that a word spells a command. `decode` does not use
it; that the two agree is a statement. -/
def legal (cmd : Word) : Bool :=
  let op := (opField cmd).toNat
  let reg := (regField cmd).toNat
  ((op == 0x00 || op == 0x03 || op == 0x04 || op == 0x06 || op == 0x08) && operandField cmd == 0)
    || (op == 0x01 && (1 ≤ reg && reg ≤ 5) && (reg != 1 || cmd.extractLsb' 4 12 == 0))
    || (op == 0x02 && reg ≤ 12 && cmd.extractLsb' 0 16 == 0)
    || (op == 0x05 && cmd.extractLsb' 1 23 == 0)
    || (op == 0x07 && cmd.extractLsb' 21 3 == 0)

/-- The host's view of the decoder: the instruction read from the word whose bits are `w`, bit 0 the
least significant; every bit at or above `nbits` is 0. -/
def decodeTableWord (nbits w : Nat) : Option Instr :=
  (decode (BitVec.ofNat 32 (w % 2 ^ nbits))).toOption

/-! ## Encoding (R66 to R70, R78) -/

/-- The opcode of each command (R70). -/
def Instr.opcode : Instr → BitVec 8
  | .nop => 0x00
  | .wrreg _ _ => 0x01
  | .rdreg _ => 0x02
  | .calcDims => 0x03
  | .beginLoad => 0x04
  | .push _ => 0x05
  | .encode => 0x06
  | .rdband _ _ => 0x07
  | .srst => 0x08

/-- The operand field of each command (R66 to R69). -/
def Instr.operand : Instr → BitVec 24
  | .nop => 0
  | .wrreg r imm16 => r.num ++ imm16
  | .rdreg r => r.num ++ (0 : Half)
  | .calcDims => 0
  | .beginLoad => 0
  | .push p => (0 : BitVec 23) ++ p
  | .encode => 0
  | .rdband b i => ((0 : BitVec 3) ++ b : BitVec 6) ++ i
  | .srst => 0

/-- The word of an instruction (R65, R70). -/
def encode (i : Instr) : Word := i.opcode ++ i.operand

end Sys2Proof
end

