-- ==== Sys2Proof/Config.lean ====
section
/-! DEFINITION. What an implementation fixes (the two open parameters `WMAX` and `ROUND_TIE`,
spec/00_scope.md R5 and R6) and the free values of the model: values the spec leaves unspecified and
which therefore have no body here.

The five constants of the geometry (R4: 5 bands, 24 rows a band, 120 canvas rows, 24 column bits,
3 bytes a column) are not parameters; they stand as literals where the rules write them. -/

namespace Sys2Proof

/-- Parameter `ROUND_TIE` (R6): what `round` does at an exact half. -/
inductive RoundTie where
  | halfEven
  | halfUp
  deriving DecidableEq, Repr

/-- The values parameter `WMAX` may take, `1 ≤ WMAX ≤ 65535` (R5). -/
abbrev MaxWidth := { n : Nat // 1 ≤ n ∧ n ≤ 65535 }

/-- The two open parameters of the block (R5, R6). They are arguments of the model, constant for an
instance: no step changes them (log entry 4). -/
structure Params where
  wmax     : MaxWidth
  roundTie : RoundTie
  deriving DecidableEq, Repr

/-- The values the spec takes where it needs one: `WMAX = 65535` (R5), `ROUND_TIE = half_even` (R6).
DESIGN CHOICE, log entry 4: only `State.reset` uses them. -/
def Params.default : Params := { wmax := ⟨65535, by decide⟩, roundTie := .halfEven }

/-- FREE VALUE (R38, R141; log entry 5): what the canvas cell `(row, col)` holds after the `epoch`-th
reset when nothing has written it since. Arguments: `epoch`, `row`, `col`. -/
opaque Config.canvasContent : Nat → Nat → Nat → Bit

/-- FREE VALUE (R38, R141; log entry 5): what the band location `(b, i)` holds after the `epoch`-th
reset when nothing has written it since. Arguments: `epoch`, `b`, `i`. -/
opaque Config.bandContent : Nat → Nat → Nat → Byte

/-- FREE VALUE (R140 against R146; log entry 3): whether the word that waits at the command port in
mode BUSY is still presented after the `epoch`-th reset, when that reset came by `rst`. -/
opaque Config.keepsWaitingWord : Nat → Bool

end Sys2Proof
end

