-- ==== Sys2Proof/Machine/State.lean ====
section
/-! DEFINITION. The state of BBE as plain data (spec/10_state.md R13 to R35), its value after reset
(R38), and the reasons a step of the MODEL can stop. A fault of the SPEC (spec/60_exceptions.md R122)
is not a stop: it is a next state in mode FAULT. -/

namespace Sys2Proof.Machine

/-- The operating mode `MODE` (R24). The values 5, 6 and 7 never occur. -/
inductive Mode where
  | idle
  | loading
  | busy
  | done
  | fault
  deriving DecidableEq, Repr

/-- The fault codes 1 to 8 of `ERR` (spec/60_exceptions.md R123). Codes 9 to 15 are never produced. -/
inductive ErrCode where
  | illcmd
  | seq
  | width0
  | wmax
  | dim
  | overrun
  | underrun
  | range
  deriving DecidableEq, Repr

/-- The scan position `POS = (b, x, k)`, the block's program counter (R22): `b` is 0 to 4 and `k` is
0 to 2 always. -/
structure Pos where
  b : Fin 5
  x : Half
  k : Fin 3
  deriving DecidableEq, Repr

/-- The position `(0, 0, 0)` (R22, R38). -/
def Pos.start : Pos := { b := 0, x := 0, k := 0 }

/-- The registers `BANDW0..BANDW4` (R20). -/
structure BandWidths where
  b0 : Half
  b1 : Half
  b2 : Half
  b3 : Half
  b4 : Half
  deriving DecidableEq, Repr

/-- All five width registers 0 (R38). -/
def BandWidths.zero : BandWidths := { b0 := 0, b1 := 0, b2 := 0, b3 := 0, b4 := 0 }

/-- A memory of `n`-bit locations: the locations written since reset, as (key, value) pairs with keys
strictly rising (`Memory.wf`, Machine/Ops.lean). A key that is not listed has no value here; what a
read of it yields is the free value of Config (log entries 5, 6). `Memory 8` is a list of `Host.Cell`. -/
abbrev Memory (n : Nat) := List (Nat × BitVec n)

/-- The state (R13), with the model's own fields at the end. -/
structure State where
  /-- `MODE` (R24) -/
  mode : Mode
  /-- `ERR` (R31); none is the code 0, no fault since reset -/
  err : Option ErrCode
  /-- `BANDRDY[4:0]` (R23) -/
  bandrdy : BitVec 5
  /-- `CFG`, register 1 (R25) -/
  cfg : BitVec 4
  /-- `W`, register 2 (R15) -/
  w : Half
  /-- `H`, register 3 (R16) -/
  h : Half
  /-- `OW`, register 4 (R18) -/
  ow : Half
  /-- `OH`, register 5 (R18) -/
  oh : Half
  /-- `ERRCMD`, register 6 (R32) -/
  errcmd : Word
  /-- `LOADCNT`, register 7 (R19) -/
  loadcnt : BitVec 32
  /-- `BANDW0..4`, registers 8 to 12 (R20) -/
  bandw : BandWidths
  /-- `COL` (R21) -/
  col : Col
  /-- `POS` (R22) -/
  pos : Pos
  /-- the canvas memory (R33) -/
  canvas : Memory 1
  /-- the band memory (R34) -/
  band : Memory 8
  /-- the response stream, oldest word first (R35) -/
  resp : List Word
  /-- MODEL: the words the host presents on the command port, oldest first (log entry 1) -/
  port : List Word
  /-- MODEL: the level of `rst` at each coming step; low when the list has run out (log entry 2) -/
  rst : List Bool
  /-- MODEL: the parameters `WMAX` and `ROUND_TIE`, which no step changes (log entry 4) -/
  params : Params
  /-- MODEL: the number of resets so far, the argument of the free values (log entry 5) -/
  epoch : Nat
  deriving DecidableEq, Repr

/-- The machine right after reset (R38). The response stream is empty because the model starts here
(log entry 11), no word is presented and `rst` is low (log entries 1, 2), and the parameters are the
spec's defaults (log entry 4). -/
def State.reset : State where
  mode := .idle
  err := none
  bandrdy := 0
  cfg := 0
  w := 0
  h := 120
  ow := 0
  oh := 0
  errcmd := 0
  loadcnt := 0
  bandw := BandWidths.zero
  col := 0
  pos := Pos.start
  canvas := []
  band := []
  resp := []
  port := []
  rst := []
  params := Params.default
  epoch := 0

/-- Why the MODEL stops. No state that satisfies the invariant of Safety.lean has such a step; the
faults of the spec (R123) are next states, not stops. -/
inductive Fault where
  /-- A cell outside the CANVAS space would be accessed (R41). Raised by `PUSH` and by an engine step
  with `k = 0`, only in states no run reaches. Safe: the model stops (log entry 7). -/
  | canvasAddress
  /-- A location outside the BAND space would be accessed (R42). Raised by `RDBAND` and by an engine
  step, only in states no run reaches. Safe: the model stops (log entry 7). -/
  | bandAddress
  /-- The load pointer would be divided by `W = 0` (R113 rules it out). Raised by `PUSH`, only in
  states no run reaches. Safe: the model stops (log entry 7). -/
  | zeroDivisor
  deriving DecidableEq, Repr

/-- Why the model has no meaning for an instruction. -/
inductive Refusal where
  /-- The instruction has no meaning yet: raised by an arm of `exec` only, and no arm raises it. Safe. -/
  | notModelled (mnemonic : String)
  deriving DecidableEq, Repr

/-- The outcome of a meaning or of a step. -/
abbrev Result := Host.Outcome State Fault Refusal

end Sys2Proof.Machine
end

