-- ==== Sys2Proof/Machine/Ops.lean ====
section
/-! DEFINITION. The named operations over memory and state that the meanings share: memory access
(spec/20_memory.md R41, R42), the response stream (spec/10_state.md R35), fault entry and the return
from a fault (spec/60_exceptions.md R128, R131), and the execution procedure with its permission table
(R124, R125). -/

namespace Sys2Proof.Machine

/-! ## Memory as a sorted list -/

/-- What a memory lists for a key; an unlisted key has no value (log entry 5). -/
def Memory.read? {n : Nat} : Memory n → Nat → Option (BitVec n)
  | [], _ => none
  | (a, u) :: m, k => if k = a then some u else Memory.read? m k

/-- Write one location, keeping the keys strictly rising. -/
def Memory.write {n : Nat} : Memory n → Nat → BitVec n → Memory n
  | [], k, v => [(k, v)]
  | (a, u) :: m, k, v =>
    if k < a then (k, v) :: (a, u) :: m
    else if k = a then (k, v) :: m
    else (a, u) :: Memory.write m k v

/-- The canonical form: keys strictly rising, so that equal memories are equal lists. -/
def Memory.wf {n : Nat} : Memory n → Bool
  | [] => true
  | [_] => true
  | (a, _) :: (b, v) :: m => decide (a < b) && Memory.wf ((b, v) :: m)

/-! ## The two spaces (R41, R42) -/

/-- The parameter `WMAX` (R5) as a number. -/
def wmax (s : State) : Nat := s.params.wmax.val

/-- The key of cell `(row, col)` in the canvas list (log entry 6); one-to-one because `col < 65536`. -/
def canvasKey (row col : Nat) : Nat := row * 65536 + col

/-- The key of location `(b, i)` in the band list (log entry 6): `{b, i}` as `RDBAND` writes it (R69);
one-to-one because `i < 2^18`. -/
def bandKey (b i : Nat) : Nat := b * 262144 + i

/-- `(row, col)` is an address of the CANVAS space (R41). -/
def inCanvas (s : State) (row col : Nat) : Bool := decide (row < 120) && decide (col < wmax s)

/-- `(b, i)` is an address of the BAND space (R42). -/
def inBand (s : State) (b i : Nat) : Bool := decide (b < 5) && decide (i < 3 * wmax s)

/-- `CanvasRead(row, col)` (R9, R41); a cell nothing has written since reset holds a free value (R141,
log entry 5). Defined for addresses in range; the callers check the range. -/
def canvasRead (s : State) (row col : Nat) : Bit :=
  (s.canvas.read? (canvasKey row col)).getD (Config.canvasContent s.epoch row col)

/-- `BandRead(b, i)` (R9, R42); a location nothing has written since reset holds a free value (R141,
log entry 5). Defined for addresses in range; the callers check the range. -/
def bandRead (s : State) (b i : Nat) : Byte :=
  (s.band.read? (bandKey b i)).getD (Config.bandContent s.epoch b i)

/-- `CanvasWrite(row, col, v)` (R9, R41). -/
def canvasWrite (row col : Nat) (v : Bit) (s : State) : State :=
  { s with canvas := s.canvas.write (canvasKey row col) v }

/-- `BandWrite(b, i, v)` (R9, R42). -/
def bandWrite (b i : Nat) (v : Byte) (s : State) : State :=
  { s with band := s.band.write (bandKey b i) v }

/-! ## Responses, faults, reset -/

/-- `Respond(v)` (R9, R35, R76): append one word to the response stream. -/
def respond (v : Word) (s : State) : State := { s with resp := s.resp ++ [v] }

/-- `raise Fault(code)` (R128): record the code and the whole faulting word, enter mode FAULT, change
nothing else. It is a next state; nothing else of the command happens (R129). -/
def raiseFault (code : ErrCode) (cmd : Word) (s : State) : State :=
  { s with err := some code, errcmd := cmd, mode := .fault }

/-- The effect of either reset on the state (R38, R120, R139, R140), and the only return from mode
FAULT (R131): every register at its reset value, both memories unspecified (nothing listed, a new
epoch of free values), the response stream unchanged. The input lists and the parameters are not the
block's state and stay. -/
def resetState (s : State) : State :=
  { State.reset with
    resp := s.resp
    port := s.port
    rst := s.rst
    params := s.params
    epoch := s.epoch + 1 }

/-! ## The execution procedure (R124, R125) -/

/-- An entry of the permission table (R125). -/
inductive Permission where
  /-- the command runs -/
  | ok
  /-- the command faults with `E_SEQ` -/
  | seq
  /-- the port does not accept the word in this mode -/
  | wait
  /-- the word is discarded (R124 step 3) -/
  | discard
  deriving DecidableEq, Repr

/-- A row of the table that reads `ok ok wait ok ok`: `NOP`, `RDREG`, `SRST` (R125). -/
def alwaysRow : Mode → Permission
  | .idle => .ok
  | .loading => .ok
  | .busy => .wait
  | .done => .ok
  | .fault => .ok

/-- A row of the table that permits one mode only: `E_SEQ` in the other modes a word is accepted in,
`discard` in FAULT (R125). -/
def onlyInRow (m : Mode) : Mode → Permission
  | .idle => if m = .idle then .ok else .seq
  | .loading => if m = .loading then .ok else .seq
  | .busy => .wait
  | .done => if m = .done then .ok else .seq
  | .fault => .discard

/-- The mode permission table (R125). -/
def permission : Instr → Mode → Permission
  | .nop => alwaysRow
  | .wrreg _ _ => onlyInRow .idle
  | .rdreg _ => alwaysRow
  | .calcDims => onlyInRow .idle
  | .beginLoad => onlyInRow .idle
  | .push _ => onlyInRow .loading
  | .encode => onlyInRow .loading
  | .rdband _ _ => onlyInRow .done
  | .srst => alwaysRow

/-- What an illegal word does (R124 step 1, the last row of R125): `E_ILLCMD`, discarded in mode FAULT;
in mode BUSY the port does not accept it and nothing happens (log entry 8). -/
def illegalWord (cmd : Word) (s : State) : Result :=
  match s.mode with
  | .idle => .next (raiseFault .illcmd cmd s)
  | .loading => .next (raiseFault .illcmd cmd s)
  | .busy => .next s
  | .done => .next (raiseFault .illcmd cmd s)
  | .fault => .next s

/-- The execution procedure (R124): encoding first, then mode, then the command's own operation. In
mode BUSY the port accepts no word and nothing happens (`wait`, log entry 8). The word a fault records
is `encode i`, the one word that spells `i` (log entry 9). -/
def attempt (i : Instr) (operation : State → Result) (s : State) : Result :=
  if i.wf then
    match permission i s.mode with
    | .ok => operation s
    | .seq => .next (raiseFault .seq (encode i) s)
    | .wait => .next s
    | .discard => .next s
  else illegalWord (encode i) s

end Sys2Proof.Machine
end

