-- ==== Sys2Proof/Machine/Flags.lean ====
section
/-! DEFINITION. The flags and what is read of them: `BANDRDY` (spec/10_state.md R23), the codes of
`MODE` (R24) and `ERR` (spec/60_exceptions.md R123), the `STATUS` view (R30) and the output signals
(R36). The block has no condition codes (R23). -/

namespace Sys2Proof.Machine

/-- The value of `MODE` (R24). -/
def Mode.code : Mode → BitVec 3
  | .idle => 0
  | .loading => 1
  | .busy => 2
  | .done => 3
  | .fault => 4

/-- The value of a fault code (R123). -/
def ErrCode.code : ErrCode → BitVec 4
  | .illcmd => 1
  | .seq => 2
  | .width0 => 3
  | .wmax => 4
  | .dim => 5
  | .overrun => 6
  | .underrun => 7
  | .range => 8

/-- The value of `ERR` (R31): 0 when no fault has occurred since reset. -/
def errField : Option ErrCode → BitVec 4
  | none => 0
  | some e => e.code

/-- `STATUS` as `RDREG` returns it (R30, R87): `MODE` in bits 2:0, bit 3 zero, `ERR` in bits 7:4,
`BANDRDY` in bits 12:8, bits 31:13 zero. -/
def statusWord (s : State) : Word :=
  (0 : BitVec 19) ++ (s.bandrdy ++ (errField s.err ++ ((0 : BitVec 1) ++ s.mode.code : BitVec 4) : BitVec 8) : BitVec 13)

/-- `BANDRDY[b] <- 1` (R23, R105). -/
def setBandRdy (b : Fin 5) (flags : BitVec 5) : BitVec 5 := flags ||| BitVec.twoPow 5 b.val

/-- The output signals (R36). -/
structure Signals where
  mode    : BitVec 3
  busy    : Bool
  done    : Bool
  fault   : Bool
  bandRdy : BitVec 5
  deriving DecidableEq, Repr

/-- The output signals follow the state and have no storage of their own (R36). -/
def signals (s : State) : Signals where
  mode := s.mode.code
  busy := s.mode == .busy
  done := s.mode == .done
  fault := s.mode == .fault
  bandRdy := s.bandrdy

end Sys2Proof.Machine
end

