-- ==== Sys2Proof/Machine/Operands.lean ====
section
/-! DEFINITION. The operand forms: registers read and written by number (spec/10_state.md R14,
spec/30_encoding.md R71, R72), the fields of `CFG` (R25), and the numbers the rules compute from the
registers (R17, R19, R98). -/

namespace Sys2Proof.Machine

/-! ## The fields of CFG (R25) -/

/-- `CFG.ROWORD`, bit 0 (R27). -/
def rowOrd (s : State) : Bool := s.cfg.getLsbD 0

/-- `CFG.BYTEORD`, bit 1 (R28). -/
def byteOrd (s : State) : Bool := s.cfg.getLsbD 1

/-- `CFG.INV`, bit 2 (R26), as the bit a pixel is combined with. -/
def invBit (s : State) : Bit := s.cfg.extractLsb' 2 1

/-- `CFG.RESIZE`, bit 3 (R29): false is stretch, true is aspect-preserving. -/
def resizeAspect (s : State) : Bool := s.cfg.getLsbD 3

/-! ## The width registers by index (R20) -/

/-- `BANDW[b]` (R20). -/
def BandWidths.get (r : BandWidths) (b : Fin 5) : Half :=
  match b with
  | 0 => r.b0
  | 1 => r.b1
  | 2 => r.b2
  | 3 => r.b3
  | 4 => r.b4

/-- `BANDW[b] <- v` (R20). -/
def BandWidths.set (r : BandWidths) (b : Fin 5) (v : Half) : BandWidths :=
  match b with
  | 0 => { r with b0 := v }
  | 1 => { r with b1 := v }
  | 2 => { r with b2 := v }
  | 3 => { r with b3 := v }
  | 4 => { r with b4 := v }

/-! ## The numbered registers -/

/-- `zext_32(x[reg])` (R76, R86, R87). -/
def readReg (r : RegName) (s : State) : Word :=
  match r with
  | .status => statusWord s
  | .cfg => s.cfg.setWidth 32
  | .w => s.w.setWidth 32
  | .h => s.h.setWidth 32
  | .ow => s.ow.setWidth 32
  | .oh => s.oh.setWidth 32
  | .errcmd => s.errcmd
  | .loadcnt => s.loadcnt
  | .bandw b => (s.bandw.get b).setWidth 32

/-- `x[reg] <- imm16`, for `CFG` its bits 3 to 0 (R84). -/
def writeReg (r : WritableReg) (imm16 : Half) (s : State) : State :=
  match r with
  | .cfg => { s with cfg := imm16.extractLsb' 0 4 }
  | .w => { s with w := imm16 }
  | .h => { s with h := imm16 }
  | .ow => { s with ow := imm16 }
  | .oh => { s with oh := imm16 }

/-! ## Numbers computed from the registers -/

/-- `Heff = min(H, 120)` (R17). -/
def heff (s : State) : Nat := min s.h.toNat 120

/-- `W × H`, the number of pixels of the job (R19). -/
def pixelCount (s : State) : Nat := s.w.toNat * s.h.toNat

/-- `LOADCNT div W`, the row of the next pixel (R19, R94). -/
def loadRow (s : State) : Nat := s.loadcnt.toNat / s.w.toNat

/-- `LOADCNT mod W`, the column of the next pixel (R19, R94). -/
def loadCol (s : State) : Nat := s.loadcnt.toNat % s.w.toNat

end Sys2Proof.Machine
end

