-- ==== Sys2Proof/Machine/ConfigCmds.lean ====
section
/-! DEFINITION. The configuration commands `NOP`, `WRREG`, `RDREG`, `CALC` and the resize-policy
arithmetic (spec/40_config_and_dimension.md R83 to R91). -/

namespace Sys2Proof.Machine

/-- `NOP` (R83): nothing, in every mode. -/
def execNop (s : State) : Result := attempt .nop .next s

/-- `WRREG reg, imm16` (R84). The value is not checked against any range. -/
def execWrreg (reg : WritableReg) (imm16 : Half) (s : State) : Result :=
  attempt (.wrreg reg imm16) (fun s => .next (writeReg reg imm16 s)) s

/-- `RDREG reg` (R86): respond with the register, zero-extended. -/
def execRdreg (reg : RegName) (s : State) : Result :=
  attempt (.rdreg reg) (fun s => .next (respond (readReg reg s) s)) s

/-- `RoundDiv(n, d, tie)` (R89), for `d ≥ 1`: the integer nearest to `n / d`. -/
def roundDiv (n d : Nat) (tie : RoundTie) : Nat :=
  let q := n / d
  let r := n % d
  if 2 * r < d then q
  else if d < 2 * r then q + 1
  else
    match tie with
    | .halfUp => q + 1
    | .halfEven => if q % 2 = 0 then q else q + 1

/-- The target width `t` of `CALC` (R90): `OW` under stretch, `RoundDiv(120 × OW, OH, ROUND_TIE)` under
aspect-preserving. -/
def calcWidth (s : State) : Nat :=
  if resizeAspect s then roundDiv (120 * s.ow.toNat) s.oh.toNat s.params.roundTie else s.ow.toNat

/-- The operation of `CALC` (R90): `E_DIM`, then `E_WMAX`, then `W <- t`, `H <- 120`. -/
def calcOperation (s : State) : Result :=
  if s.ow = 0 ∨ s.oh = 0 then .next (raiseFault .dim (encode .calcDims) s)
  else if wmax s < calcWidth s then .next (raiseFault .wmax (encode .calcDims) s)
  else .next { s with w := BitVec.ofNat 16 (calcWidth s), h := 120 }

/-- `CALC` (R90). -/
def execCalc (s : State) : Result := attempt .calcDims calcOperation s

end Sys2Proof.Machine
end

