-- ==== Sys2Proof/Machine/Encode.lean ====
section
/-! DEFINITION. The encode (spec/42_band_encode.md R99 to R108): the pure transform `ColWord`, `ByteOf`,
`Encode`, the command `ENCODE`, and the engine step. -/

namespace Sys2Proof.Machine

/-- The cell `ColWord` takes for band `b`, relative row `r`, column `x` (R17, R100): the canvas cell of
row `24 b + r` below `Heff`, 0 at or beyond it. -/
def bandCell (s : State) (b r x : Nat) : Bit :=
  if 24 * b + r < heff s then canvasRead s (24 * b + r) x else 0

/-- The bit of the column word that relative row `r` goes to (R27, R100): `23 - r` for `ROWORD = 0`,
`r` for `ROWORD = 1`. -/
def rowBit (roword : Bool) (r : Nat) : Nat := if roword then r else 23 - r

/-- `w[pos] <- cell`, for a word whose bit `pos` is still 0. -/
def putBit (w : Col) (pos : Nat) (cell : Bit) : Col := w ||| (cell.setWidth 24 <<< pos)

/-- `ColWord(b, x)` (R100). -/
def colWord (s : State) (b x : Nat) : Col :=
  (List.range 24).foldl (fun w r => putBit w (rowBit (rowOrd s) r) (bandCell s b r x)) 0

/-- `ByteOf(w, k)` (R101) for a given `BYTEORD`. -/
def byteOf (byteord : Bool) (w : Col) (k : Fin 3) : Byte :=
  match byteord, k with
  | false, 0 => w.extractLsb' 16 8
  | false, 1 => w.extractLsb' 8 8
  | false, 2 => w.extractLsb' 0 8
  | true, 0 => w.extractLsb' 0 8
  | true, 1 => w.extractLsb' 8 8
  | true, 2 => w.extractLsb' 16 8

/-- `Encode[b][i] = ByteOf(ColWord(b, i div 3), i mod 3)` (R102). -/
def encodedByte (s : State) (b i : Nat) : Byte :=
  byteOf (byteOrd s) (colWord s b (i / 3)) ⟨i % 3, Nat.mod_lt i (by decide)⟩

/-- The operation of `ENCODE` (R99): `E_UNDERRUN` if pixels are missing, else start the engine. -/
def encodeOperation (s : State) : Result :=
  if s.loadcnt.toNat < pixelCount s then .next (raiseFault .underrun (encode .encode) s)
  else .next { s with pos := Pos.start, mode := .busy }

/-- `ENCODE` (R99). The `15 × W` engine steps that follow are steps of the machine (R105, R106). -/
def execEncode (s : State) : Result := attempt .encode encodeOperation s

/-- The location index of the byte the engine writes next: `3 x + k` (R22). -/
def posIndex (p : Pos) : Nat := 3 * p.x.toNat + p.k.val

/-- `COL'` of the engine step (R105): a new column word when `k = 0`, else the held one. -/
def nextCol (s : State) : Col :=
  if s.pos.k = 0 then colWord s s.pos.b.val s.pos.x.toNat else s.col

/-- The end of band `b` (R105): `BANDW[b] <- W`, `BANDRDY[b] <- 1`, then the next band, or mode DONE
after band 4. -/
def finishBand (s : State) : State :=
  let s' := { s with bandw := s.bandw.set s.pos.b s.w, bandrdy := setBandRdy s.pos.b s.bandrdy }
  if h : s.pos.b.val + 1 < 5 then { s' with pos := { b := ⟨s.pos.b.val + 1, h⟩, x := 0, k := 0 } }
  else { s' with pos := Pos.start, mode := .done }

/-- The advance of `POS` (R22, R105): the next byte of the column, the next column, or the end of the
band. `x < W - 1` is written `x + 1 < W`. -/
def advance (s : State) : State :=
  if h : s.pos.k.val + 1 < 3 then { s with pos := { s.pos with k := ⟨s.pos.k.val + 1, h⟩ } }
  else if s.pos.x.toNat + 1 < s.w.toNat then { s with pos := { s.pos with x := s.pos.x + 1, k := 0 } }
  else finishBand s

/-- The engine step (R105), whose precondition is `MODE = BUSY`: one byte of one band. It stops only at
a column outside the memories, which no reachable state has (log entry 7). -/
def engineStep (s : State) : Result :=
  if s.pos.x.toNat < wmax s then
    let s' := { s with col := nextCol s }
    .next (advance (bandWrite s.pos.b.val (posIndex s.pos) (byteOf (byteOrd s) s'.col s.pos.k) s'))
  else if s.pos.k = 0 then .fault .canvasAddress
  else .fault .bandAddress

end Sys2Proof.Machine
end

