-- ==== Sys2Proof/Machine/Load.lean ====
section
/-! DEFINITION. Loading the canvas: `BEGIN` and `PUSH` (spec/41_canvas_load.md R93 to R98). -/

namespace Sys2Proof.Machine

/-- The operation of `BEGIN` (R93): `E_WIDTH0`, `E_WMAX`, `E_DIM` in that order, then open the load. -/
def beginOperation (s : State) : Result :=
  if s.w = 0 then .next (raiseFault .width0 (encode .beginLoad) s)
  else if wmax s < s.w.toNat then .next (raiseFault .wmax (encode .beginLoad) s)
  else if s.h = 0 then .next (raiseFault .dim (encode .beginLoad) s)
  else .next { s with loadcnt := 0, mode := .loading }

/-- `BEGIN` (R93). -/
def execBegin (s : State) : Result := attempt .beginLoad beginOperation s

/-- Count one accepted pixel: `LOADCNT <- LOADCNT + 1` (R19, R94). -/
def countPixel (s : State) : State := { s with loadcnt := s.loadcnt + 1 }

/-- The operation of `PUSH p` (R94): `E_OVERRUN` when the load is complete; else store `p xor INV` at
the load pointer if its row is below 120, and count the pixel either way (R96). -/
def pushOperation (p : Bit) (s : State) : Result :=
  if s.loadcnt.toNat = pixelCount s then .next (raiseFault .overrun (encode (.push p)) s)
  else if s.w = 0 then .fault .zeroDivisor
  else if loadRow s < 120 then
    if inCanvas s (loadRow s) (loadCol s) then
      .next (countPixel (canvasWrite (loadRow s) (loadCol s) (p ^^^ invBit s) s))
    else .fault .canvasAddress
  else .next (countPixel s)

/-- `PUSH p` (R94). -/
def execPush (p : Bit) (s : State) : Result := attempt (.push p) (pushOperation p) s

end Sys2Proof.Machine
end

