-- ==== Sys2Proof/Machine/Readout.lean ====
section
/-! DEFINITION. Reading the bands and resetting: `RDBAND` and `SRST` (spec/43_readout_and_system.md
R117, R120). -/

namespace Sys2Proof.Machine

/-- The operation of `RDBAND b, i` (R117): `E_RANGE` when `b ≥ 5` or `i ≥ 3 × W`, else respond with the
byte, zero-extended. -/
def rdbandOperation (b : BitVec 3) (i : BitVec 18) (s : State) : Result :=
  if 5 ≤ b.toNat ∨ 3 * s.w.toNat ≤ i.toNat then .next (raiseFault .range (encode (.rdband b i)) s)
  else if inBand s b.toNat i.toNat then
    .next (respond ((bandRead s b.toNat i.toNat).setWidth 32) s)
  else .fault .bandAddress

/-- `RDBAND b, i` (R117). -/
def execRdband (b : BitVec 3) (i : BitVec 18) (s : State) : Result :=
  attempt (.rdband b i) (rdbandOperation b i) s

/-- `SRST` (R120): every piece of state takes its reset value; the response stream is untouched. -/
def execSrst (s : State) : Result := attempt .srst (fun s => .next (resetState s)) s

end Sys2Proof.Machine
end

