-- ==== Sys2Proof/Machine/Dispatch.lean ====
section
/-! DEFINITION. The meaning of every command: one arm per constructor of `Instr`. -/

namespace Sys2Proof.Machine

-- The meaning of a command in a state; each meaning runs the execution procedure (R124) itself.
def exec (i : Instr) (s : State) : Host.Outcome State Fault Refusal :=
  match i with
  | .nop => Sys2Proof.Machine.execNop s
  | .wrreg reg imm16 => Sys2Proof.Machine.execWrreg reg imm16 s
  | .rdreg reg => Sys2Proof.Machine.execRdreg reg s
  | .calcDims => Sys2Proof.Machine.execCalc s
  | .beginLoad => Sys2Proof.Machine.execBegin s
  | .push p => Sys2Proof.Machine.execPush p s
  | .encode => Sys2Proof.Machine.execEncode s
  | .rdband b idx => Sys2Proof.Machine.execRdband b idx s
  | .srst => Sys2Proof.Machine.execSrst s

end Sys2Proof.Machine
end

