-- ==== Sys2Proof/Machine/Port.lean ====
section
/-! DEFINITION. The command port and the reset input (spec/60_exceptions.md R124,
spec/70_reset_and_hazards.md R139 to R142, R146): how a presented word comes to run, what `rst` does,
and what happens when nothing is presented. -/

namespace Sys2Proof.Machine

/-- `Execute(cmd)` (R124) for an accepted word: an illegal word by step 1, a command by its meaning. -/
def executeWord (cmd : Word) (s : State) : Result :=
  match decode cmd with
  | .ok i => exec i s
  | .error _ => illegalWord cmd s

/-- The step of the host's side, `MODE ≠ BUSY` (R146): the port accepts the oldest presented word and
executes it; with no word presented nothing happens (log entry 16). -/
def portStep (s : State) : Result :=
  match s.port with
  | [] => .next s
  | cmd :: rest => executeWord cmd { s with port := rest }

/-- The presented words after `rst` (R140): the word being presented is not executed. In mode BUSY a
waiting word is dropped by R140 and accepted in IDLE by R146; which of the two is a free value (log
entry 3). -/
def portAfterRst (s : State) : List Word :=
  match s.mode with
  | .idle => s.port.tail
  | .loading => s.port.tail
  | .busy => if Config.keepsWaitingWord (s.epoch + 1) then s.port else s.port.tail
  | .done => s.port.tail
  | .fault => s.port.tail

/-- The reset signal (R139, R140, R142): the state is the reset state, in any mode; an encode in
progress is abandoned. -/
def rstStep (s : State) : State := { resetState s with port := portAfterRst s }

/-- The level of `rst` at this step (log entry 2). -/
def rstHigh (s : State) : Bool := s.rst.headD false

/-- The state with this step's sample of `rst` used up (log entry 2). -/
def tickRst (s : State) : State := { s with rst := s.rst.tail }

/-- The state whose next step accepts the word `cmd`: the word put before every other presented word,
and `rst` low at that step (log entry 12). -/
def presentWord (cmd : Word) (s : State) : State :=
  { s with
    port := cmd :: s.port
    rst := match s.rst with
      | [] => []
      | _ :: later => false :: later }

end Sys2Proof.Machine
end

