-- ==== Sys2Proof/Machine/Step.lean ====
section
/-! DEFINITION. One step of the machine: a reset by `rst`, else one engine step in mode BUSY, else what
the command port does (spec/00_scope.md R10, spec/20_memory.md R53, R54, spec/70_reset_and_hazards.md
R139, R146). -/

namespace Sys2Proof.Machine

/-- One step. -/
def step (s : State) : Host.Outcome State Fault Refusal :=
  if rstHigh s then .next (rstStep (tickRst s))
  else if s.mode = .busy then engineStep (tickRst s)
  else portStep (tickRst s)

/-- The host's placing of one command: `step` accepts and runs exactly it, in every mode a word is
accepted in (log entry 12). -/
def State.withFetchWord (s : State) (nbits w : Nat) : State :=
  presentWord (BitVec.ofNat 32 (w % 2 ^ nbits)) s

end Sys2Proof.Machine
end

