-- ==== Sys2Proof/Safety.lean ====
section
/-! DEFINITION. What holds of every reachable state (spec/10_state.md R39), in the words the statements
use, and two runs the statements are about: a sequence of `PUSH` commands and a sequence of engine
steps. -/

namespace Sys2Proof.Machine

/-- `1 ≤ W ≤ WMAX` and `H ≥ 1`: what `BEGIN` checks (R15, R93). -/
structure DimsOk (s : State) : Prop where
  w_pos : 1 ≤ s.w.toNat
  w_le : s.w.toNat ≤ wmax s
  h_pos : 1 ≤ s.h.toNat

/-- The cells of the first `n` pixels have been written, those of rows below 120 (R39 item 4, R95). -/
def CellsWritten (s : State) (n : Nat) : Prop :=
  ∀ m, m < n → m / s.w.toNat < 120 →
    (s.canvas.read? (canvasKey (m / s.w.toNat) (m % s.w.toNat))).isSome

/-- Location `(b, i)` has been written and holds `Encode[b][i]` (R102). -/
def HoldsEncoded (s : State) (b i : Nat) : Prop :=
  s.band.read? (bandKey b i) = some (encodedByte s b i)

/-- What R39 item 3 says of mode IDLE. -/
structure IdleInv (s : State) : Prop where
  loadcnt_zero : s.loadcnt = 0
  bandrdy_zero : s.bandrdy = 0
  bandw_zero : s.bandw = BandWidths.zero
  pos_start : s.pos = Pos.start
  col_zero : s.col = 0

/-- What R39 item 4 says of mode LOADING. -/
structure LoadingInv (s : State) : Prop where
  dims : DimsOk s
  loadcnt_le : s.loadcnt.toNat ≤ pixelCount s
  bandrdy_zero : s.bandrdy = 0
  bandw_zero : s.bandw = BandWidths.zero
  pos_start : s.pos = Pos.start
  col_zero : s.col = 0
  written : CellsWritten s s.loadcnt.toNat

/-- Location `(b, i)` precedes `POS` in scan order (R22, R39 item 5). -/
def precedesPos (s : State) (b i : Nat) : Prop :=
  i < 3 * s.w.toNat ∧ (b < s.pos.b.val ∨ b = s.pos.b.val ∧ i < posIndex s.pos)

/-- What R39 item 5 says of mode BUSY, with what `COL` holds inside a column (R21). -/
structure BusyInv (s : State) : Prop where
  dims : DimsOk s
  loaded : s.loadcnt.toNat = pixelCount s
  written : CellsWritten s s.loadcnt.toNat
  x_lt : s.pos.x.toNat < s.w.toNat
  bandrdy_eq : s.bandrdy = BitVec.ofNat 5 (2 ^ s.pos.b.val - 1)
  bandw_eq : ∀ j : Fin 5, s.bandw.get j = if j.val < s.pos.b.val then s.w else 0
  col_eq : s.pos.k ≠ 0 → s.col = colWord s s.pos.b.val s.pos.x.toNat
  encoded : ∀ b i, precedesPos s b i → HoldsEncoded s b i

/-- What R39 item 6 says of mode DONE, with what `COL` is left as (R99). -/
structure DoneInv (s : State) : Prop where
  dims : DimsOk s
  loaded : s.loadcnt.toNat = pixelCount s
  written : CellsWritten s s.loadcnt.toNat
  bandrdy_all : s.bandrdy = 0x1F
  bandw_all : ∀ j : Fin 5, s.bandw.get j = s.w
  pos_start : s.pos = Pos.start
  col_last : s.col = colWord s 4 (s.w.toNat - 1)
  encoded : ∀ b i, b < 5 → i < 3 * s.w.toNat → HoldsEncoded s b i

/-- What R39 says in each mode; in mode FAULT everything but `MODE`, `ERR`, `ERRCMD` is as it was in
mode IDLE, LOADING or DONE (R39 item 7). -/
def JobInv (s : State) : Prop :=
  match s.mode with
  | .idle => IdleInv s
  | .loading => LoadingInv s
  | .busy => BusyInv s
  | .done => DoneInv s
  | .fault => IdleInv s ∨ LoadingInv s ∨ DoneInv s

/-- The invariant of the machine (R39): what every reachable state satisfies, whatever the host does. -/
structure Inv (s : State) : Prop where
  canvas_wf : s.canvas.wf = true
  band_wf : s.band.wf = true
  err_iff : s.err ≠ none ↔ s.mode = .fault
  errcmd_zero : s.err = none → s.errcmd = 0
  job : JobInv s

/-- A step after which the machine goes on, with a property of the next state. -/
def nextWith (r : Result) (p : State → Prop) : Prop :=
  match r with
  | .next t => p t
  | .fault _ => False
  | .refused _ => False

/-- An accepted word that is illegal (R124 step 1): `Fault(E_ILLCMD)`, discarded in mode FAULT. -/
def RaisesIllcmd (cmd : Word) : Prop :=
  ∀ s : State,
    (s.mode = .idle ∨ s.mode = .loading ∨ s.mode = .done →
      executeWord cmd s =
        .next { s with err := some .illcmd, errcmd := cmd, mode := .fault }) ∧
    (s.mode = .fault → executeWord cmd s = .next s)

/-- `PUSH` commands one after another (R95), stopping at the first stop. -/
def pushAll : List Bit → State → Result
  | [], s => .next s
  | p :: ps, s =>
    match exec (.push p) s with
    | .next t => pushAll ps t
    | .fault r => .fault r
    | .refused r => .refused r

/-- `n` steps of the machine, stopping at the first stop. -/
def runSteps : Nat → State → Result
  | 0, s => .next s
  | n + 1, s =>
    match step s with
    | .next t => runSteps n t
    | .fault r => .fault r
    | .refused r => .refused r

end Sys2Proof.Machine
end

