-- ==== Sys2Proof/Certificates/Slice0/Obligations.lean ====
section
/-! DEFINITION. The statements about BBE for the provers. Each docstring names the rule of spec/ it
formalises. A statement about a command written as an equation `exec i s = .next ...` is also that
command's frame: every field the record update does not name is unchanged. -/

open Sys2Proof Sys2Proof.Machine

/-! ## Encoding -/

/-- R70, R78: words written out from the spec's encodings decode to the commands they stand for; the
number of every register, R14 and R72, is written out: the five of `WRREG`, the thirteen of `RDREG`. The
last part is the word of every command as R78's table computes it. -/
def Obligations.DecodeSpecWords : Prop :=
  (decode 0x00000000#32 = .ok .nop ∧
    decode 0x03000000#32 = .ok .calcDims ∧
    decode 0x04000000#32 = .ok .beginLoad ∧
    decode 0x05000001#32 = .ok (.push 1) ∧
    decode 0x06000000#32 = .ok .encode ∧
    decode 0x0711FFFF#32 = .ok (.rdband 4 0x1FFFF) ∧
    decode 0x08000000#32 = .ok .srst) ∧
  (decode 0x0101000F#32 = .ok (.wrreg .cfg 15) ∧
    decode 0x01020030#32 = .ok (.wrreg .w 48) ∧
    decode 0x01030003#32 = .ok (.wrreg .h 3) ∧
    decode 0x01041234#32 = .ok (.wrreg .ow 0x1234) ∧
    decode 0x0105FFFF#32 = .ok (.wrreg .oh 0xFFFF)) ∧
  (decode 0x02000000#32 = .ok (.rdreg .status) ∧
    decode 0x02010000#32 = .ok (.rdreg .cfg) ∧
    decode 0x02020000#32 = .ok (.rdreg .w) ∧
    decode 0x02030000#32 = .ok (.rdreg .h) ∧
    decode 0x02040000#32 = .ok (.rdreg .ow) ∧
    decode 0x02050000#32 = .ok (.rdreg .oh) ∧
    decode 0x02060000#32 = .ok (.rdreg .errcmd) ∧
    decode 0x02070000#32 = .ok (.rdreg .loadcnt) ∧
    decode 0x02080000#32 = .ok (.rdreg (.bandw 0)) ∧
    decode 0x02090000#32 = .ok (.rdreg (.bandw 1)) ∧
    decode 0x020A0000#32 = .ok (.rdreg (.bandw 2)) ∧
    decode 0x020B0000#32 = .ok (.rdreg (.bandw 3)) ∧
    decode 0x020C0000#32 = .ok (.rdreg (.bandw 4))) ∧
  (∀ v : Half,
    (encode (.wrreg .cfg v)).toNat = 0x01000000 + 1 * 65536 + v.toNat ∧
    (encode (.wrreg .w v)).toNat = 0x01000000 + 2 * 65536 + v.toNat ∧
    (encode (.wrreg .h v)).toNat = 0x01000000 + 3 * 65536 + v.toNat ∧
    (encode (.wrreg .ow v)).toNat = 0x01000000 + 4 * 65536 + v.toNat ∧
    (encode (.wrreg .oh v)).toNat = 0x01000000 + 5 * 65536 + v.toNat) ∧
  (encode (.rdreg .status) = 0x02000000 ∧ encode (.rdreg .cfg) = 0x02010000 ∧
    encode (.rdreg .w) = 0x02020000 ∧ encode (.rdreg .h) = 0x02030000 ∧
    encode (.rdreg .ow) = 0x02040000 ∧ encode (.rdreg .oh) = 0x02050000 ∧
    encode (.rdreg .errcmd) = 0x02060000 ∧ encode (.rdreg .loadcnt) = 0x02070000 ∧
    ∀ b : Fin 5, (encode (.rdreg (.bandw b))).toNat = 0x02000000 + (8 + b.val) * 65536) ∧
  (encode .nop = 0x00000000 ∧ encode .calcDims = 0x03000000 ∧ encode .beginLoad = 0x04000000 ∧
    encode .encode = 0x06000000 ∧ encode .srst = 0x08000000) ∧
  (∀ p : Bit, (encode (.push p)).toNat = 0x05000000 + p.toNat) ∧
  (∀ (b : BitVec 3) (i : BitVec 18),
    (encode (.rdband b i)).toNat = 0x07000000 + b.toNat * 262144 + i.toNat)

/-- R65 to R71: for every well-formed instruction, with every operand at every value its encoding
admits, decoding its word gives it back. -/
def Obligations.DecodeEncodeRoundTrip : Prop :=
  ∀ i : Instr, i.wf = true → decode (encode i) = .ok i

/-- R70: rows are disjoint; a legal word is the word of exactly the command it decodes to, so the
faulting word of a command is `encode i` (log entry 9). -/
def Obligations.EncodeDecodeRoundTrip : Prop :=
  ∀ (cmd : Word) (i : Instr), decode cmd = .ok i → i.wf = true ∧ encode i = cmd

/-- R73: decoding is total and accepts exactly the legal words; every other word raises `E_ILLCMD`, or
is discarded in mode FAULT. -/
def Obligations.DecodeAcceptsExactlyLegal : Prop :=
  (∀ cmd : Word, (∃ i, decode cmd = .ok i) ↔ legal cmd = true) ∧
  (∀ cmd : Word, legal cmd = false → RaisesIllcmd cmd)

/-- R74: every word with a reserved opcode is illegal whatever its operand field holds. -/
def Obligations.ReservedOpcodesIllegal : Prop :=
  ∀ cmd : Word, 0x09 ≤ (cmd.extractLsb' 24 8).toNat → decode cmd = .error .reservedOpcode

/-! ## Reset -/

/-- R38: what each numbered register reads as right after reset, and the hidden registers. -/
def Obligations.ResetRegisterValues : Prop :=
  (∀ r : RegName, readReg r State.reset = if r = .h then 0x78 else 0) ∧
  State.reset.mode = .idle ∧ State.reset.err = none ∧ State.reset.bandrdy = 0 ∧
  State.reset.col = 0 ∧ State.reset.pos = { b := 0, x := 0, k := 0 } ∧
  signals State.reset =
    { mode := 0, busy := false, done := false, fault := false, bandRdy := 0 }

/-- R36: in every state the output signals follow `MODE` and `BANDRDY`. -/
def Obligations.SignalsFollowState : Prop :=
  ∀ s : State,
    (signals s).mode = s.mode.code ∧
    ((signals s).busy = true ↔ s.mode = .busy) ∧
    ((signals s).done = true ↔ s.mode = .done) ∧
    ((signals s).fault = true ↔ s.mode = .fault) ∧
    (signals s).bandRdy = s.bandrdy

/-- R120 (and R38, which it names): `SRST` in every mode a word is accepted in. The memories hold free
values of a new epoch; the response stream, the inputs and the parameters stay. A word with `op = 0x08`
and a non-zero operand field is illegal. In mode BUSY the port does not accept it. No other command
leaves mode FAULT, or mode DONE but by a fault. -/
def Obligations.SrstRule : Prop :=
  (∀ s : State, s.mode ≠ .busy →
    exec .srst s = .next
      { mode := .idle, err := none, bandrdy := 0, cfg := 0, w := 0, h := 120, ow := 0, oh := 0,
        errcmd := 0, loadcnt := 0, bandw := { b0 := 0, b1 := 0, b2 := 0, b3 := 0, b4 := 0 }, col := 0,
        pos := { b := 0, x := 0, k := 0 }, canvas := [], band := [], resp := s.resp, port := s.port,
        rst := s.rst, params := s.params, epoch := s.epoch + 1 } ∧
    nextWith (exec .srst s) fun t =>
      (∀ row col, canvasRead t row col = Config.canvasContent (s.epoch + 1) row col) ∧
      (∀ b i, bandRead t b i = Config.bandContent (s.epoch + 1) b i)) ∧
  (∀ s : State, s.mode = .busy → rstHigh s = false → step s = engineStep (tickRst s)) ∧
  (∀ (i : Instr) (s t : State), exec i s = .next t → s.mode = .done ∨ s.mode = .fault →
    t.mode = s.mode ∨ t.mode = .fault ∨ i = .srst) ∧
  (∀ cmd : Word, cmd.extractLsb' 24 8 = 0x08 → cmd.extractLsb' 0 24 ≠ 0 →
    decode cmd = .error .operandNotZero ∧ RaisesIllcmd cmd)

/-- R139, R140, R142: `rst` in any mode, BUSY included. The word being presented is not executed; what
becomes of a word that waits in mode BUSY is left open (log entry 3). -/
def Obligations.RstResetsInAnyMode : Prop :=
  ∀ s : State, rstHigh s = true →
    nextWith (step s) fun t =>
      (s.mode ≠ .busy → t.port = s.port.tail) ∧ (t.port = s.port.tail ∨ t.port = s.port) ∧
      t = { mode := .idle, err := none, bandrdy := 0, cfg := 0, w := 0, h := 120, ow := 0, oh := 0,
            errcmd := 0, loadcnt := 0, bandw := { b0 := 0, b1 := 0, b2 := 0, b3 := 0, b4 := 0 },
            col := 0, pos := { b := 0, x := 0, k := 0 }, canvas := [], band := [], resp := s.resp,
            port := t.port, rst := s.rst.tail, params := s.params, epoch := s.epoch + 1 }

/-! ## A step -/

/-- R124, R146: in a mode that accepts words and with `rst` low, a step accepts the oldest presented
word and is the meaning of the command it spells, the word taken from the port and this step's sample
of `rst` used up (log entries 1, 2). -/
def Obligations.StepRunsDecodedWord : Prop :=
  ∀ (s : State) (cmd : Word) (rest : List Word) (i : Instr),
    rstHigh s = false → s.mode ≠ .busy → s.port = cmd :: rest → decode cmd = .ok i →
    step s = exec i { s with port := rest, rst := s.rst.tail }

/-- R124 step 1, the last row of R125: an illegal word raises `E_ILLCMD` with the whole word recorded,
and is discarded in mode FAULT. -/
def Obligations.StepIllegalWord : Prop :=
  ∀ (s : State) (cmd : Word) (rest : List Word) (e : IllegalWord),
    rstHigh s = false → s.mode ≠ .busy → s.port = cmd :: rest → decode cmd = .error e →
    step s = .next
      (if s.mode = .fault then { s with port := rest, rst := s.rst.tail }
       else { s with port := rest, rst := s.rst.tail, err := some .illcmd, errcmd := cmd,
                     mode := .fault })

/-- R150 (log entry 16): with `rst` low and no word presented, the block waits and nothing changes. -/
def Obligations.StepWaitsForAWord : Prop :=
  ∀ s : State, rstHigh s = false → s.mode ≠ .busy → s.port = [] →
    step s = .next { s with rst := s.rst.tail }

/-- R146: while the mode is BUSY the port accepts nothing; a presented word is neither refused nor lost,
and once a step leaves the mode DONE, the very next step executes it. -/
def Obligations.BusyStallsThePort : Prop :=
  ∀ s t : State, s.mode = .busy → rstHigh s = false → step s = .next t →
    t.port = s.port ∧ t.resp = s.resp ∧ t.err = s.err ∧ t.errcmd = s.errcmd ∧
    (t.mode = .busy ∨ t.mode = .done) ∧
    (∀ (cmd : Word) (rest : List Word), t.mode = .done → rstHigh t = false → t.port = cmd :: rest →
      step t = executeWord cmd { t with port := rest, rst := t.rst.tail })

/-! ## The configuration commands -/

/-- R83: `NOP` does nothing in every mode it is accepted in, waits in mode BUSY, and a word with
`op = 0x00` and a non-zero operand field is not `NOP`. -/
def Obligations.NopRule : Prop :=
  (∀ s : State, s.mode ≠ .busy → exec .nop s = .next s) ∧
  (∀ s : State, s.mode = .busy → rstHigh s = false → step s = engineStep (tickRst s)) ∧
  decode 0x00000000#32 = .ok .nop ∧
  (∀ cmd : Word, cmd.extractLsb' 24 8 = 0x00 → cmd.extractLsb' 0 24 ≠ 0 →
    decode cmd = .error .operandNotZero ∧ RaisesIllcmd cmd)

/-- R84: `WRREG` writes one of `CFG` (bits 3 to 0 of the operand), `W`, `H`, `OW`, `OH` in mode IDLE,
unchecked against any range; `E_SEQ` in LOADING and DONE; a bad register number or a set bit of
`imm16[15:4]` for `CFG` is illegal. -/
def Obligations.WrregRule : Prop :=
  (∀ (s : State) (v : Half), s.mode = .idle →
    (v.extractLsb' 4 12 = 0 →
      exec (.wrreg .cfg v) s = .next { s with cfg := v.extractLsb' 0 4 }) ∧
    exec (.wrreg .w v) s = .next { s with w := v } ∧
    exec (.wrreg .h v) s = .next { s with h := v } ∧
    exec (.wrreg .ow v) s = .next { s with ow := v } ∧
    exec (.wrreg .oh v) s = .next { s with oh := v }) ∧
  (∀ (s : State) (r : WritableReg) (v : Half), (Instr.wrreg r v).wf = true →
    s.mode = .loading ∨ s.mode = .done →
    exec (.wrreg r v) s =
      .next { s with err := some .seq, errcmd := encode (.wrreg r v), mode := .fault }) ∧
  (∀ (s : State) (r : WritableReg) (v : Half), s.mode = .fault → exec (.wrreg r v) s = .next s) ∧
  (∀ cmd : Word, cmd.extractLsb' 24 8 = 0x01 →
    ((cmd.extractLsb' 16 8).toNat < 1 ∨ 5 < (cmd.extractLsb' 16 8).toNat →
      decode cmd = .error .registerNotWritable ∧ RaisesIllcmd cmd) ∧
    (cmd.extractLsb' 16 8 = 1 → cmd.extractLsb' 4 12 ≠ 0 →
      decode cmd = .error .cfgBitsNotZero ∧ RaisesIllcmd cmd))

/-- R86: `RDREG` responds with the register, zero-extended, in every mode a word is accepted in, FAULT
included, and changes nothing else; a number above 12 or a non-zero `imm16` is illegal. -/
def Obligations.RdregRule : Prop :=
  (∀ (s : State) (r : RegName), s.mode ≠ .busy →
    exec (.rdreg r) s = .next { s with resp := s.resp ++ [readReg r s] }) ∧
  (∀ cmd : Word, cmd.extractLsb' 24 8 = 0x02 →
    12 < (cmd.extractLsb' 16 8).toNat ∨ cmd.extractLsb' 0 16 ≠ 0 → RaisesIllcmd cmd)

/-- R87: the value of each register bit by bit, and the `STATUS` values a host can see: `BANDRDY` shows in
mode FAULT when the fault happened in mode DONE. The numbers `ERR` shows for the faults are those of R123. -/
def Obligations.RegisterReadBits : Prop :=
  (errField none = 0 ∧ ErrCode.illcmd.code = 1 ∧ ErrCode.seq.code = 2 ∧ ErrCode.width0.code = 3 ∧
    ErrCode.wmax.code = 4 ∧ ErrCode.dim.code = 5 ∧ ErrCode.overrun.code = 6 ∧
    ErrCode.underrun.code = 7 ∧ ErrCode.range.code = 8) ∧
  (∀ s : State,
    ((readReg .status s).extractLsb' 0 3 = s.mode.code ∧
     (readReg .status s).getLsbD 3 = false ∧
     (readReg .status s).extractLsb' 4 4 = errField s.err ∧
     (readReg .status s).extractLsb' 8 5 = s.bandrdy ∧
     (readReg .status s).extractLsb' 13 19 = 0) ∧
    ((readReg .cfg s).getLsbD 0 = rowOrd s ∧ (readReg .cfg s).getLsbD 1 = byteOrd s ∧
     (readReg .cfg s).extractLsb' 2 1 = invBit s ∧ (readReg .cfg s).getLsbD 3 = resizeAspect s ∧
     (readReg .cfg s).extractLsb' 4 28 = 0) ∧
    ((readReg .w s).toNat = s.w.toNat ∧ (readReg .h s).toNat = s.h.toNat ∧
     (readReg .ow s).toNat = s.ow.toNat ∧ (readReg .oh s).toNat = s.oh.toNat) ∧
    readReg .errcmd s = s.errcmd ∧ readReg .loadcnt s = s.loadcnt ∧
    (∀ b : Fin 5, (readReg (.bandw b) s).toNat = (s.bandw.get b).toNat)) ∧
  (∀ s : State, Inv s →
    (s.mode = .idle → readReg .status s = 0x00000000) ∧
    (s.mode = .loading → readReg .status s = 0x00000001) ∧
    (s.mode = .done → readReg .status s = 0x00001F03) ∧
    (s.mode = .fault → ∃ e, s.err = some e ∧
      ((readReg .status s).toNat = 4 + 16 * e.code.toNat ∨
       (readReg .status s).toNat = 4 + 16 * e.code.toNat + 0x1F00)) ∧
    (∀ (code : ErrCode) (cmd : Word),
      (s.mode = .idle ∨ s.mode = .loading →
        (readReg .status (raiseFault code cmd s)).toNat = 4 + 16 * code.code.toNat) ∧
      (s.mode = .done →
        (readReg .status (raiseFault code cmd s)).toNat = 4 + 16 * code.code.toNat + 0x1F00)))

/-- R90: `CALC` in mode IDLE: `E_DIM`, then `E_WMAX` with `W` and `H` unchanged, else `W <- t`,
`H <- 120`; `E_SEQ` in LOADING and DONE. `t` is `OW` under stretch and the rounded quotient under
aspect-preserving. -/
def Obligations.CalcRule : Prop :=
  (∀ s : State, s.mode = .idle →
    let t := if s.cfg.getLsbD 3 then roundDiv (120 * s.ow.toNat) s.oh.toNat s.params.roundTie
             else s.ow.toNat
    (s.ow = 0 ∨ s.oh = 0 →
      exec .calcDims s =
        .next { s with err := some .dim, errcmd := 0x03000000, mode := .fault }) ∧
    (s.ow ≠ 0 → s.oh ≠ 0 → wmax s < t →
      exec .calcDims s =
        .next { s with err := some .wmax, errcmd := 0x03000000, mode := .fault }) ∧
    (s.ow ≠ 0 → s.oh ≠ 0 → t ≤ wmax s →
      exec .calcDims s = .next { s with w := BitVec.ofNat 16 t, h := 120 } ∧
      (BitVec.ofNat 16 t : Half).toNat = t)) ∧
  (∀ s : State, s.mode = .loading ∨ s.mode = .done →
    exec .calcDims s =
      .next { s with err := some .seq, errcmd := 0x03000000, mode := .fault }) ∧
  (∀ s : State, s.mode = .fault → exec .calcDims s = .next s)

/-- R91: the laws of the target width; with R89's rule at a tie with an odd quotient, `q + 1` under both
values of `ROUND_TIE`. -/
def Obligations.CalcLaws : Prop :=
  (∀ s : State, s.cfg.getLsbD 3 = false → calcWidth s = s.ow.toNat) ∧
  (∀ (n d : Nat) (tie : RoundTie), 1 ≤ d →
    let q := roundDiv n d tie
    2 * (((q * d : Nat) : Int) - (n : Int)).natAbs ≤ d ∧
    (∀ m : Nat, 2 * (((m * d : Nat) : Int) - (n : Int)).natAbs ≤ d → m = q ∨ 2 * (n % d) = d)) ∧
  (∀ (ow : Nat) (tie : RoundTie), roundDiv (120 * ow) 120 tie = ow) ∧
  (∀ (n d : Nat) (tie : RoundTie), 1 ≤ d → n % d = 0 → roundDiv n d tie = n / d) ∧
  (∀ n d : Nat, 1 ≤ d →
    (roundDiv n d .halfEven ≠ roundDiv n d .halfUp ↔ 2 * (n % d) = d ∧ n / d % 2 = 0) ∧
    (2 * (n % d) = d → n / d % 2 = 0 →
      roundDiv n d .halfEven = n / d ∧ roundDiv n d .halfUp = n / d + 1)) ∧
  (∀ (n d : Nat) (tie : RoundTie), 1 ≤ d → 2 * (n % d) = d → n / d % 2 = 1 →
    roundDiv n d tie = n / d + 1) ∧
  (∀ (ow oh : Nat) (tie : RoundTie), 1 ≤ oh →
    (roundDiv (120 * ow) oh tie = 0 ↔ 240 * ow < oh ∨ 240 * ow = oh ∧ tie = .halfEven))

/-! ## Loading the canvas -/

/-- R93: `BEGIN` in mode IDLE: `E_WIDTH0`, `E_WMAX`, `E_DIM` in that order, else LOADING with
`LOADCNT = 0`; `E_SEQ` in LOADING and DONE. -/
def Obligations.BeginRule : Prop :=
  (∀ s : State, s.mode = .idle →
    (s.w = 0 →
      exec .beginLoad s =
        .next { s with err := some .width0, errcmd := 0x04000000, mode := .fault }) ∧
    (s.w ≠ 0 → wmax s < s.w.toNat →
      exec .beginLoad s =
        .next { s with err := some .wmax, errcmd := 0x04000000, mode := .fault }) ∧
    (s.w ≠ 0 → s.w.toNat ≤ wmax s → s.h = 0 →
      exec .beginLoad s =
        .next { s with err := some .dim, errcmd := 0x04000000, mode := .fault }) ∧
    (s.w ≠ 0 → s.w.toNat ≤ wmax s → s.h ≠ 0 →
      exec .beginLoad s = .next { s with loadcnt := 0, mode := .loading })) ∧
  (∀ s : State, s.mode = .loading ∨ s.mode = .done →
    exec .beginLoad s =
      .next { s with err := some .seq, errcmd := 0x04000000, mode := .fault }) ∧
  (∀ s : State, s.mode = .fault → exec .beginLoad s = .next s)

/-- R94: `PUSH` in mode LOADING: `E_OVERRUN` when `W × H` pixels have been accepted; else `p xor INV`
goes to row `LOADCNT div W`, column `LOADCNT mod W` when that row is below 120, and `LOADCNT` counts it
either way; `E_SEQ` in IDLE and DONE; a set bit of `cmd[23:1]` is illegal. -/
def Obligations.PushRule : Prop :=
  (∀ (s : State) (p : Bit), s.mode = .loading → DimsOk s →
    (s.loadcnt.toNat = s.w.toNat * s.h.toNat →
      exec (.push p) s =
        .next { s with err := some .overrun, errcmd := encode (.push p), mode := .fault }) ∧
    (s.loadcnt.toNat < s.w.toNat * s.h.toNat → s.loadcnt.toNat / s.w.toNat < 120 →
      exec (.push p) s =
        .next { s with
          canvas := s.canvas.write
            (canvasKey (s.loadcnt.toNat / s.w.toNat) (s.loadcnt.toNat % s.w.toNat))
            (p ^^^ s.cfg.extractLsb' 2 1)
          loadcnt := s.loadcnt + 1 }) ∧
    (s.loadcnt.toNat < s.w.toNat * s.h.toNat → 120 ≤ s.loadcnt.toNat / s.w.toNat →
      exec (.push p) s = .next { s with loadcnt := s.loadcnt + 1 })) ∧
  (∀ (s : State) (p : Bit), s.mode = .idle ∨ s.mode = .done →
    exec (.push p) s =
      .next { s with err := some .seq, errcmd := encode (.push p), mode := .fault }) ∧
  (∀ (s : State) (p : Bit), s.mode = .fault → exec (.push p) s = .next s) ∧
  (∀ cmd : Word, cmd.extractLsb' 24 8 = 0x05 → cmd.extractLsb' 1 23 ≠ 0 →
    decode cmd = .error .pixelBitsNotZero ∧ RaisesIllcmd cmd)

/-- R95: after the pixels `ps` pushed from an open load, cell `(n div W, n mod W)` holds the `n`-th
pixel xor `INV` for every row below 120, no other cell has been written, and when the load is complete
the canvas is the whole image. -/
def Obligations.LoadLaw : Prop :=
  ∀ (s : State) (ps : List Bit), s.mode = .loading → DimsOk s → s.loadcnt = 0 →
    ps.length ≤ s.w.toNat * s.h.toNat →
    nextWith (pushAll ps s) fun t =>
      t = { s with canvas := t.canvas, loadcnt := BitVec.ofNat 32 ps.length } ∧
      (∀ (n : Nat) (p : Bit), ps[n]? = some p → n / s.w.toNat < 120 →
        canvasRead t (n / s.w.toNat) (n % s.w.toNat) = p ^^^ invBit s) ∧
      (∀ row col, col < wmax s →
        (∀ n, n < ps.length → n / s.w.toNat < 120 → ¬ (row = n / s.w.toNat ∧ col = n % s.w.toNat)) →
        t.canvas.read? (canvasKey row col) = s.canvas.read? (canvasKey row col)) ∧
      (ps.length = s.w.toNat * s.h.toNat → ∀ row col, row < heff s → col < s.w.toNat →
        ∃ p, ps[row * s.w.toNat + col]? = some p ∧ canvasRead t row col = p ^^^ invBit s)

/-! ## The transform -/

/-- R100: relative row `r` of the column word is the canvas cell of row `24 b + r` below `Heff`, 0 at or
beyond it, in bit `23 - r` for `ROWORD = 0` and bit `r` for `ROWORD = 1`. -/
def Obligations.ColWordRule : Prop :=
  ∀ (s : State) (b x r : Nat), b < 5 → x < s.w.toNat → r < 24 →
    (colWord s b x).getLsbD (if s.cfg.getLsbD 0 then r else 23 - r) =
      decide ((if 24 * b + r < min s.h.toNat 120 then canvasRead s (24 * b + r) x else 0) = 1)

/-- R101: byte `k` of the triple is `w[8s + 7 : 8s]` with `s = 2 - k` for `BYTEORD = 0` and `s = k` for
`BYTEORD = 1`. -/
def Obligations.ByteOfRule : Prop :=
  ∀ (byteord : Bool) (w : Col) (k : Fin 3),
    byteOf byteord w k = w.extractLsb' (8 * (if byteord then k.val else 2 - k.val)) 8

/-- R80: for all four packing orders, the cell of relative row `r` of column `x` is bit `p mod 8` of
location `3 x + j`. -/
def Obligations.PackingOrders : Prop :=
  ∀ (s : State) (b x r : Nat), b < 5 → x < s.w.toNat → r < 24 →
    let p := if s.cfg.getLsbD 0 then r else 23 - r
    let q := p / 8
    let j := if s.cfg.getLsbD 1 then q else 2 - q
    (encodedByte s b (3 * x + j)).getLsbD (p % 8) = decide (bandCell s b r x = 1)

/-- R103: band `b` depends only on canvas rows `24 b` to `24 b + 23`, and the five row ranges partition
rows 0 to 119. -/
def Obligations.BandRows : Prop :=
  (∀ (s t : State) (b i : Nat), b < 5 → i < 3 * s.w.toNat →
    s.cfg = t.cfg → s.h = t.h → s.w = t.w →
    (∀ row, 24 * b ≤ row → row < 24 * b + 24 →
      canvasRead s row (i / 3) = canvasRead t row (i / 3)) →
    encodedByte s b i = encodedByte t b i) ∧
  (∀ row, row < 120 → ∃ b, (b < 5 ∧ 24 * b ≤ row ∧ row < 24 * b + 24) ∧
    ∀ b', b' < 5 → 24 * b' ≤ row → row < 24 * b' + 24 → b' = b)

/-- R104: a band wholly below the canvas is all zeros in every packing order, and a row at or beyond
`H` contributes 0 to the band that holds it. -/
def Obligations.ShortCanvas : Prop :=
  (∀ (s : State) (b i : Nat), b < 5 → i < 3 * s.w.toNat → heff s ≤ 24 * b →
    encodedByte s b i = 0) ∧
  (∀ (s : State) (b x r : Nat), b < 5 → x < s.w.toNat → r < 24 → s.h.toNat ≤ 24 * b + r →
    (colWord s b x).getLsbD (if s.cfg.getLsbD 0 then r else 23 - r) = false)

/-- R110: a column whose 24 cells are all ink gives `FF FF FF`, all background `00 00 00`, in all four
packing orders. -/
def Obligations.Saturation : Prop :=
  ∀ (s : State) (b x : Nat) (c : Bit), b < 5 → x < s.w.toNat →
    (∀ r, r < 24 → bandCell s b r x = c) →
    colWord s b x = (if c = 1 then 0xFFFFFF else 0) ∧
    ∀ k, k < 3 → encodedByte s b (3 * x + k) = if c = 1 then 0xFF else 0x00

/-- R111: in the source document's order, one ink cell at relative row `r` gives the byte
`2^(7 - r mod 8)` at index `r div 8` of the triple and `00` in the other two. -/
def Obligations.RowToBitMapping : Prop :=
  ∀ (s : State) (b x r : Nat), b < 5 → x < s.w.toNat → r < 24 →
    s.cfg.getLsbD 0 = false → s.cfg.getLsbD 1 = false →
    (∀ r', r' < 24 → bandCell s b r' x = if r' = r then 1 else 0) →
    (colWord s b x).getLsbD (23 - r) = true ∧
    ∀ k, k < 3 →
      (encodedByte s b (3 * x + k)).toNat = if k = r / 8 then 2 ^ (7 - r % 8) else 0

/-- R112: the relations between the four packing orders, for states that differ in `CFG[1:0]` only. -/
def Obligations.PackingRelations : Prop :=
  ∀ (s : State) (b x : Nat), b < 5 → x < s.w.toNat →
    let inOrder := fun (row byte : Bool) =>
      { s with cfg := (s.cfg.extractLsb' 2 2 ++ BitVec.ofBool byte) ++ BitVec.ofBool row }
    let byteAt := fun (row byte : Bool) (k : Nat) => encodedByte (inOrder row byte) b (3 * x + k)
    (∀ byte, colWord (inOrder true byte) b x = (colWord (inOrder false byte) b x).reverse) ∧
    (∀ row k, k < 3 → byteAt row true k = byteAt row false (2 - k)) ∧
    (∀ k, k < 3 → byteAt true true k = (byteAt false false k).reverse) ∧
    (∀ k, k < 3 → byteAt true false k = (byteAt false true k).reverse)

/-- R115: changing one canvas cell in a row below `Heff` changes exactly one bit of exactly one byte,
the one R80 gives, and the map from cells to (location, bit) of a band is a bijection. -/
def Obligations.OneCellOneBit : Prop :=
  (∀ (s : State) (b x r : Nat) (v : Bit), b < 5 → x < s.w.toNat → r < 24 → 24 * b + r < heff s →
    let p := if s.cfg.getLsbD 0 then r else 23 - r
    let j := if s.cfg.getLsbD 1 then p / 8 else 2 - p / 8
    ∀ b' i q, b' < 5 → i < 3 * s.w.toNat → q < 8 →
      (encodedByte (canvasWrite (24 * b + r) x v s) b' i).getLsbD q =
        if b' = b ∧ i = 3 * x + j ∧ q = p % 8 then decide (v = 1)
        else (encodedByte s b' i).getLsbD q) ∧
  (∀ (rowOrder byteOrder : Bool) (w i q : Nat), i < 3 * w → q < 8 →
    let bitOf := fun r => if rowOrder then r else 23 - r
    let locOf := fun r => if byteOrder then bitOf r / 8 else 2 - bitOf r / 8
    ∃ r x, (r < 24 ∧ x < w ∧ i = 3 * x + locOf r ∧ q = bitOf r % 8) ∧
      ∀ r' x', r' < 24 → x' < w → i = 3 * x' + locOf r' → q = bitOf r' % 8 → r' = r ∧ x' = x)

/-! ## The encode -/

/-- R99: `ENCODE` in mode LOADING starts the engine when the load is complete, `E_UNDERRUN` before;
`E_SEQ` in IDLE and DONE. -/
def Obligations.EncodeStarts : Prop :=
  (∀ s : State, s.mode = .loading →
    (s.loadcnt.toNat < s.w.toNat * s.h.toNat →
      exec .encode s =
        .next { s with err := some .underrun, errcmd := 0x06000000, mode := .fault }) ∧
    (s.w.toNat * s.h.toNat ≤ s.loadcnt.toNat →
      exec .encode s = .next { s with pos := { b := 0, x := 0, k := 0 }, mode := .busy })) ∧
  (∀ s : State, s.mode = .idle ∨ s.mode = .done →
    exec .encode s =
      .next { s with err := some .seq, errcmd := 0x06000000, mode := .fault }) ∧
  (∀ s : State, s.mode = .fault → exec .encode s = .next s)

/-- R105: the engine step as a step of the machine: one byte written, `COL` taken when `k = 0`, and the
advance of `POS` in its four cases. In every other mode the engine has no step: a step of the machine is
the command port's. -/
def Obligations.EngineStepRule : Prop :=
  (∀ s : State, s.mode = .busy → rstHigh s = false → DimsOk s → s.pos.x.toNat < s.w.toNat →
    let c := if s.pos.k = 0 then colWord s s.pos.b.val s.pos.x.toNat else s.col
    let m := s.band.write (bandKey s.pos.b.val (3 * s.pos.x.toNat + s.pos.k.val))
      (byteOf (s.cfg.getLsbD 1) c s.pos.k)
    (∀ h : s.pos.k.val < 2,
      step s = .next { s with
        rst := s.rst.tail, col := c, band := m,
        pos := { b := s.pos.b, x := s.pos.x, k := ⟨s.pos.k.val + 1, Nat.succ_lt_succ h⟩ } }) ∧
    (s.pos.k = 2 → s.pos.x.toNat < s.w.toNat - 1 →
      step s = .next { s with
        rst := s.rst.tail, col := c, band := m,
        pos := { b := s.pos.b, x := s.pos.x + 1, k := 0 } }) ∧
    (s.pos.k = 2 → s.pos.x.toNat = s.w.toNat - 1 → ∀ h : s.pos.b.val < 4,
      step s = .next { s with
        rst := s.rst.tail, col := c, band := m,
        bandw := s.bandw.set s.pos.b s.w, bandrdy := setBandRdy s.pos.b s.bandrdy,
        pos := { b := ⟨s.pos.b.val + 1, Nat.succ_lt_succ h⟩, x := 0, k := 0 } }) ∧
    (s.pos.k = 2 → s.pos.x.toNat = s.w.toNat - 1 → s.pos.b = 4 →
      step s = .next { s with
        rst := s.rst.tail, col := c, band := m,
        bandw := s.bandw.set s.pos.b s.w, bandrdy := setBandRdy s.pos.b s.bandrdy,
        pos := { b := 0, x := 0, k := 0 }, mode := .done })) ∧
  (∀ s : State, s.mode ≠ .busy → rstHigh s = false → step s = portStep (tickRst s))

/-- R20, R23: writing one width register or one ready flag leaves the others as they were. -/
def Obligations.BandFlagsIndependent : Prop :=
  (∀ (r : BandWidths) (b j : Fin 5) (v : Half),
    (r.set b v).get j = if j = b then v else r.get j) ∧
  (∀ (f : BitVec 5) (b j : Fin 5),
    (setBandRdy b f).getLsbD j.val = (f.getLsbD j.val || decide (j = b)))

/-- R106: from the state `ENCODE` leaves, the `j`-th step is at
`POS = (j div 3W, (j mod 3W) div 3, j mod 3)` and writes location `j mod 3W` of band `j div 3W` and no
other; after exactly `15 × W` steps the mode is DONE. -/
def Obligations.EngineScanOrder : Prop :=
  ∀ s : State, s.mode = .busy → s.pos = { b := 0, x := 0, k := 0 } → DimsOk s → s.rst = [] →
    (∀ j, j < 15 * s.w.toNat →
      nextWith (runSteps j s) fun t =>
        t.mode = .busy ∧ t.pos.b.val = j / (3 * s.w.toNat) ∧
        t.pos.x.toNat = j % (3 * s.w.toNat) / 3 ∧ t.pos.k.val = j % 3 ∧
        nextWith (step t) fun u =>
          (u.band.read? (bandKey (j / (3 * s.w.toNat)) (j % (3 * s.w.toNat)))).isSome ∧
          ∀ key, key ≠ bandKey (j / (3 * s.w.toNat)) (j % (3 * s.w.toNat)) →
            u.band.read? key = t.band.read? key) ∧
    nextWith (runSteps (15 * s.w.toNat) s) fun t => t.mode = .done

/-- R107 with the net effect of R99 and the untouched locations of R116: the step machine agrees with
the pure function. From a complete load, `ENCODE` and `15 × W` engine steps leave every band location
holding `Encode[b][i]`, the five widths, all ready flags, `COL` the last column word, and nothing else
changed. -/
def Obligations.EncodeNetEffect : Prop :=
  ∀ s : State, s.mode = .loading → DimsOk s → s.loadcnt.toNat = s.w.toNat * s.h.toNat → s.rst = [] →
    nextWith (exec .encode s) fun s1 =>
      nextWith (runSteps (15 * s.w.toNat) s1) fun t =>
        t = { s with
          band := t.band
          bandw := { b0 := s.w, b1 := s.w, b2 := s.w, b3 := s.w, b4 := s.w }
          bandrdy := 0x1F
          col := colWord s 4 (s.w.toNat - 1)
          pos := { b := 0, x := 0, k := 0 }
          mode := .done } ∧
        (∀ b i, b < 5 → i < 3 * s.w.toNat → bandRead t b i = encodedByte s b i) ∧
        (∀ b i, b < 5 → 3 * s.w.toNat ≤ i → i < 3 * wmax s → bandRead t b i = bandRead s b i)

/-- R114: two jobs with the same cells in rows below `Heff` and columns below `W`, the same `W`, `H` and
packing order leave byte-identical bands, whatever else their states hold. -/
def Obligations.EncodePurity : Prop :=
  ∀ s s' : State, s.mode = .loading → s'.mode = .loading → DimsOk s → DimsOk s' →
    s.loadcnt.toNat = s.w.toNat * s.h.toNat → s'.loadcnt.toNat = s'.w.toNat * s'.h.toNat →
    s.rst = [] → s'.rst = [] → s.w = s'.w → s.h = s'.h →
    s.cfg.extractLsb' 0 2 = s'.cfg.extractLsb' 0 2 →
    (∀ row col, row < heff s → col < s.w.toNat → canvasRead s row col = canvasRead s' row col) →
    nextWith (exec .encode s) fun s1 => nextWith (exec .encode s') fun s1' =>
      nextWith (runSteps (15 * s.w.toNat) s1) fun t =>
        nextWith (runSteps (15 * s.w.toNat) s1') fun t' =>
          ∀ b i, b < 5 → i < 3 * s.w.toNat → bandRead t b i = bandRead t' b i

/-- R95, R80 and R107 together: a whole job. From an open load, push `W × H` pixels, encode, and run the
engine: the bit that R80 gives for canvas row `24 b + r`, column `x` is the pixel of that row and column
xor `INV`, and 0 for a row at or beyond `Heff`. -/
def Obligations.JobEncodesThePixels : Prop :=
  ∀ (s : State) (ps : List Bit), s.mode = .loading → DimsOk s → s.loadcnt = 0 → s.rst = [] →
    ps.length = s.w.toNat * s.h.toNat →
    nextWith (pushAll ps s) fun s1 => nextWith (exec .encode s1) fun s2 =>
      nextWith (runSteps (15 * s.w.toNat) s2) fun t =>
        t.mode = .done ∧
        ∀ b x r, b < 5 → x < s.w.toNat → r < 24 →
          let p := if s.cfg.getLsbD 0 then r else 23 - r
          let j := if s.cfg.getLsbD 1 then p / 8 else 2 - p / 8
          (24 * b + r < heff s → ∀ pixel, ps[(24 * b + r) * s.w.toNat + x]? = some pixel →
            (bandRead t b (3 * x + j)).getLsbD (p % 8) = decide (pixel ^^^ invBit s = 1)) ∧
          (heff s ≤ 24 * b + r → (bandRead t b (3 * x + j)).getLsbD (p % 8) = false)

/-! ## Reading the bands -/

/-- R117: `RDBAND` in mode DONE responds with the byte, zero-extended, and changes nothing else;
`E_RANGE` when `b ≥ 5` or `i ≥ 3 × W`; `E_SEQ` in IDLE and LOADING; a set bit of `cmd[23:21]` is
illegal. -/
def Obligations.RdbandRule : Prop :=
  (∀ (s : State) (b : BitVec 3) (i : BitVec 18), s.mode = .done →
    (b.toNat < 5 → i.toNat < 3 * s.w.toNat → s.w.toNat ≤ wmax s →
      exec (.rdband b i) s =
        .next { s with resp := s.resp ++ [(bandRead s b.toNat i.toNat).setWidth 32] }) ∧
    (5 ≤ b.toNat ∨ 3 * s.w.toNat ≤ i.toNat →
      exec (.rdband b i) s =
        .next { s with err := some .range, errcmd := encode (.rdband b i), mode := .fault })) ∧
  (∀ (s : State) (b : BitVec 3) (i : BitVec 18), s.mode = .idle ∨ s.mode = .loading →
    exec (.rdband b i) s =
      .next { s with err := some .seq, errcmd := encode (.rdband b i), mode := .fault }) ∧
  (∀ (s : State) (b : BitVec 3) (i : BitVec 18), s.mode = .fault →
    exec (.rdband b i) s = .next s) ∧
  (∀ cmd : Word, cmd.extractLsb' 24 8 = 0x07 → cmd.extractLsb' 21 3 ≠ 0 →
    decode cmd = .error .bandBitsNotZero ∧ RaisesIllcmd cmd)

/-- R118: in every reachable state in mode DONE, `RDBAND b, i` responds `Encode[b][i]`, and every cell
that byte depends on has been written in this job. -/
def Obligations.ReadLaw : Prop :=
  ∀ (s : State) (b : BitVec 3) (i : BitVec 18), Inv s → s.mode = .done →
    b.toNat < 5 → i.toNat < 3 * s.w.toNat →
    exec (.rdband b i) s =
      .next { s with resp := s.resp ++ [(encodedByte s b.toNat i.toNat).setWidth 32] } ∧
    ∀ r, r < 24 → 24 * b.toNat + r < heff s →
      (s.canvas.read? (canvasKey (24 * b.toNat + r) (i.toNat / 3))).isSome

/-! ## Faults and modes -/

/-- R125: the entries of the permission table that are not `ok`, for every command: `E_SEQ` in the modes
it lists, discarded in mode FAULT, waiting in mode BUSY; the last row for illegal words. -/
def Obligations.PermissionTable : Prop :=
  (∀ (i : Instr) (s : State), i.wf = true →
    ((∃ r v, i = .wrreg r v) ∨ i = .calcDims ∨ i = .beginLoad →
      s.mode = .loading ∨ s.mode = .done →
      exec i s = .next { s with err := some .seq, errcmd := encode i, mode := .fault }) ∧
    ((∃ p, i = .push p) ∨ i = .encode → s.mode = .idle ∨ s.mode = .done →
      exec i s = .next { s with err := some .seq, errcmd := encode i, mode := .fault }) ∧
    ((∃ b j, i = .rdband b j) → s.mode = .idle ∨ s.mode = .loading →
      exec i s = .next { s with err := some .seq, errcmd := encode i, mode := .fault }) ∧
    (i ≠ .nop → (∀ r, i ≠ .rdreg r) → i ≠ .srst → s.mode = .fault → exec i s = .next s)) ∧
  (∀ (s : State), s.mode = .busy → rstHigh s = false → step s = engineStep (tickRst s)) ∧
  (∀ (cmd : Word) (e : IllegalWord), decode cmd = .error e → RaisesIllcmd cmd)

/-- R126: the spec's own examples of priority, in every state of the mode they name. -/
def Obligations.FaultPriority : Prop :=
  (∀ s : State, s.mode = .idle →
    executeWord 0x05000002#32 s =
      .next { s with err := some .illcmd, errcmd := 0x05000002, mode := .fault }) ∧
  (∀ s : State, s.mode = .idle → s.w = 0 → s.h = 0 →
    executeWord 0x04000000#32 s =
      .next { s with err := some .width0, errcmd := 0x04000000, mode := .fault }) ∧
  (∀ s : State, s.mode = .idle →
    executeWord 0x071C0000#32 s =
      .next { s with err := some .seq, errcmd := 0x071C0000, mode := .fault })

/-- R128, R129: whatever word raises it, a fault records its code and the whole word, enters mode FAULT
and changes nothing else; in mode FAULT no second fault is recorded. -/
def Obligations.FaultsArePrecise : Prop :=
  (∀ (cmd : Word) (s t : State), executeWord cmd s = .next t → s.mode ≠ .fault → t.mode = .fault →
    (s.mode = .idle ∨ s.mode = .loading ∨ s.mode = .done) ∧
    ∃ code, t = { s with err := some code, errcmd := cmd, mode := .fault }) ∧
  (∀ (cmd : Word) (s t : State), executeWord cmd s = .next t → s.mode = .fault → t.mode = .fault →
    t.err = s.err ∧ t.errcmd = s.errcmd)

/-- R123: the number of every fault code, the cause each code stands for, and what a fault records: a word
that enters mode FAULT leaves a code whose cause held in the state it was executed in, the whole word in
`ERRCMD`, and the register values that caused the fault in their registers. -/
def Obligations.FaultCodesAndCauses : Prop :=
  (errField none = 0 ∧ ErrCode.illcmd.code = 1 ∧ ErrCode.seq.code = 2 ∧ ErrCode.width0.code = 3 ∧
    ErrCode.wmax.code = 4 ∧ ErrCode.dim.code = 5 ∧ ErrCode.overrun.code = 6 ∧
    ErrCode.underrun.code = 7 ∧ ErrCode.range.code = 8) ∧
  ∀ (cmd : Word) (s t : State), executeWord cmd s = .next t → s.mode ≠ .fault → t.mode = .fault →
    let op := cmd.extractLsb' 24 8
    ∃ code, t = { s with err := some code, errcmd := cmd, mode := .fault } ∧
      (code = .illcmd ↔ legal cmd = false) ∧
      (code = .seq →
        (op = 0x01 ∨ op = 0x03 ∨ op = 0x04) ∧ (s.mode = .loading ∨ s.mode = .done) ∨
        (op = 0x05 ∨ op = 0x06) ∧ (s.mode = .idle ∨ s.mode = .done) ∨
        op = 0x07 ∧ (s.mode = .idle ∨ s.mode = .loading)) ∧
      (code = .width0 → cmd = 0x04000000 ∧ s.mode = .idle ∧ s.w = 0) ∧
      (code = .wmax → s.mode = .idle ∧
        (cmd = 0x04000000 ∧ wmax s < s.w.toNat ∨ cmd = 0x03000000 ∧ wmax s < calcWidth s)) ∧
      (code = .dim → s.mode = .idle ∧
        (cmd = 0x04000000 ∧ s.h = 0 ∨ cmd = 0x03000000 ∧ (s.ow = 0 ∨ s.oh = 0))) ∧
      (code = .overrun → op = 0x05 ∧ s.mode = .loading ∧
        s.loadcnt.toNat = s.w.toNat * s.h.toNat) ∧
      (code = .underrun → cmd = 0x06000000 ∧ s.mode = .loading ∧
        s.loadcnt.toNat < s.w.toNat * s.h.toNat) ∧
      (code = .range → op = 0x07 ∧ s.mode = .done ∧
        (5 ≤ (cmd.extractLsb' 18 3).toNat ∨ 3 * s.w.toNat ≤ (cmd.extractLsb' 0 18).toNat))

/-- R130, R131: in mode FAULT every word is accepted, and only `RDREG` (a response) and `SRST` (the
reset state) do anything; every other word, legal or not, changes nothing. -/
def Obligations.FaultModeAbsorbs : Prop :=
  ∀ (cmd : Word) (s : State), s.mode = .fault →
    (∀ r, decode cmd = .ok (.rdreg r) →
      executeWord cmd s = .next { s with resp := s.resp ++ [readReg r s] }) ∧
    (decode cmd = .ok .srst → executeWord cmd s = .next (resetState s)) ∧
    ((∀ r, decode cmd ≠ .ok (.rdreg r)) → decode cmd ≠ .ok .srst → executeWord cmd s = .next s)

/-- R24: the values of `MODE` and its only transitions: IDLE to LOADING to BUSY to DONE, any of IDLE,
LOADING, DONE to FAULT, and any mode to IDLE by reset (`rst` in any mode, `SRST` in any but BUSY). -/
def Obligations.ModeTransitions : Prop :=
  (Mode.idle.code = 0 ∧ Mode.loading.code = 1 ∧ Mode.busy.code = 2 ∧ Mode.done.code = 3 ∧
    Mode.fault.code = 4) ∧
  ∀ s t : State, step s = .next t →
    t.mode = s.mode ∨
    (s.mode = .idle ∧ t.mode = .loading ∧ s.port.head? = some 0x04000000#32) ∨
    (s.mode = .loading ∧ t.mode = .busy ∧ s.port.head? = some 0x06000000#32) ∨
    (s.mode = .busy ∧ t.mode = .done) ∨
    ((s.mode = .idle ∨ s.mode = .loading ∨ s.mode = .done) ∧ t.mode = .fault) ∨
    (t.mode = .idle ∧
      (rstHigh s = true ∨ s.mode ≠ .busy ∧ s.port.head? = some 0x08000000#32))

/-- R39 item 8: `CFG`, `W`, `H`, `OW`, `OH` change only in mode IDLE; a reset, which starts a new epoch,
puts them at their reset values in any mode. -/
def Obligations.ConfigConstantOutsideIdle : Prop :=
  ∀ s t : State, step s = .next t → s.mode ≠ .idle → t.epoch = s.epoch →
    t.cfg = s.cfg ∧ t.w = s.w ∧ t.h = s.h ∧ t.ow = s.ow ∧ t.oh = s.oh

/-- R35, R76: the response stream is append-only, and only a `RDREG` or a `RDBAND` that does not fault
appends, one word each: the register or the byte, zero-extended. -/
def Obligations.ResponsesAppendOnly : Prop :=
  ∀ s t : State, step s = .next t →
    t.resp = s.resp ∨
    ∃ cmd rest, s.port = cmd :: rest ∧ s.mode ≠ .busy ∧ rstHigh s = false ∧
      ((∃ r, decode cmd = .ok (.rdreg r) ∧ t.resp = s.resp ++ [readReg r s]) ∨
       (∃ b i, decode cmd = .ok (.rdband b i) ∧ s.mode = .done ∧ t.mode = .done ∧
         t.resp = s.resp ++ [(bandRead s b.toNat i.toNat).setWidth 32]))

/-- R133: the engine raises no fault: in every reachable state in mode BUSY the engine step answers a
next state, in mode BUSY or DONE, with no fault recorded. -/
def Obligations.EngineRaisesNoFault : Prop :=
  ∀ s : State, Inv s → s.mode = .busy → rstHigh s = false →
    nextWith (step s) fun t => (t.mode = .busy ∨ t.mode = .done) ∧ t.err = none

/-! ## Frames -/

/-- The frame of `NOP`, `WRREG`, `RDREG`, `CALC`, `BEGIN`, `ENCODE` and `RDBAND` in a next state: no
canvas cell and no band location changes; `CFG`, `OW`, `OH` change only by `WRREG` to them, `W` and `H`
by `WRREG` to them or `CALC`, `LOADCNT` by `BEGIN`, `POS` by `ENCODE`, the response stream by `RDREG`
and `RDBAND`; `ERR` and `ERRCMD` only by entering mode FAULT; `BANDRDY`, `BANDW`, `COL` never. -/
def Obligations.RegisterCommandsFrame : Prop :=
  ∀ (i : Instr) (s t : State), exec i s = .next t → (∀ p, i ≠ .push p) → i ≠ .srst →
    (∀ row col, canvasRead t row col = canvasRead s row col) ∧
    (∀ b j, bandRead t b j = bandRead s b j) ∧
    ((∀ v, i ≠ .wrreg .cfg v) → t.cfg = s.cfg) ∧
    ((∀ v, i ≠ .wrreg .w v) → i ≠ .calcDims → t.w = s.w) ∧
    ((∀ v, i ≠ .wrreg .h v) → i ≠ .calcDims → t.h = s.h) ∧
    ((∀ v, i ≠ .wrreg .ow v) → t.ow = s.ow) ∧
    ((∀ v, i ≠ .wrreg .oh v) → t.oh = s.oh) ∧
    (i ≠ .beginLoad → t.loadcnt = s.loadcnt) ∧
    (i ≠ .encode → t.pos = s.pos) ∧
    ((∀ r, i ≠ .rdreg r) → (∀ b j, i ≠ .rdband b j) → t.resp = s.resp) ∧
    (i ≠ .beginLoad → i ≠ .encode → t.mode = s.mode ∨ t.mode = .fault) ∧
    (t.mode ≠ .fault ∨ s.mode = .fault → t.err = s.err ∧ t.errcmd = s.errcmd) ∧
    t.bandrdy = s.bandrdy ∧ t.bandw = s.bandw ∧ t.col = s.col ∧
    t.port = s.port ∧ t.rst = s.rst ∧ t.params = s.params ∧ t.epoch = s.epoch

/-- The frame of `PUSH` in a next state: only the cell the load pointer addresses may change, and only
when its row is below 120; no band location changes; of the registers only `LOADCNT`, or by a fault
`ERR`, `ERRCMD` and `MODE`. -/
def Obligations.PushFrame : Prop :=
  ∀ (p : Bit) (s t : State), exec (.push p) s = .next t →
    (∀ row col, col < 65536 →
      ¬ (row = loadRow s ∧ col = loadCol s ∧ row < 120) →
      canvasRead t row col = canvasRead s row col) ∧
    (∀ b j, bandRead t b j = bandRead s b j) ∧
    (t.mode ≠ .fault ∨ s.mode = .fault →
      t = { s with canvas := t.canvas, loadcnt := t.loadcnt }) ∧
    (t.mode = .fault → s.mode ≠ .fault →
      t = { s with err := t.err, errcmd := t.errcmd, mode := .fault })

/-- R116 and R54, the frame of an engine step in a next state: it changes no numbered register except
`BANDW0..4` and the `MODE` and `BANDRDY` fields of `STATUS`, no canvas cell, and no band location but
the one `POS` names, which lies below `3 × W`. -/
def Obligations.EngineStepFrame : Prop :=
  ∀ s t : State, s.mode = .busy → rstHigh s = false → s.pos.x.toNat < s.w.toNat →
    step s = .next t →
    t.cfg = s.cfg ∧ t.w = s.w ∧ t.h = s.h ∧ t.ow = s.ow ∧ t.oh = s.oh ∧ t.err = s.err ∧
    t.errcmd = s.errcmd ∧ t.loadcnt = s.loadcnt ∧ t.resp = s.resp ∧ t.port = s.port ∧
    t.params = s.params ∧ t.epoch = s.epoch ∧
    (∀ row col, canvasRead t row col = canvasRead s row col) ∧
    (∀ b j, j < 262144 → ¬ (b = s.pos.b.val ∧ j = 3 * s.pos.x.toNat + s.pos.k.val) →
      bandRead t b j = bandRead s b j) ∧
    3 * s.pos.x.toNat + s.pos.k.val < 3 * s.w.toNat

/-! ## Invariants -/

/-- R38, R39: the reset state satisfies the invariant. -/
def Obligations.ResetSatisfiesInvariant : Prop := Inv State.reset

/-- R39: every step from a state that satisfies the invariant leads to one that does, whatever words
the host presents, whenever `rst` is high, and for every `WMAX` and `ROUND_TIE`. -/
def Obligations.StepKeepsInvariant : Prop :=
  ∀ s t : State, Inv s → step s = .next t → Inv t

/-- R113, R133, R150: in every reachable state a step answers a next state: the model never stops. -/
def Obligations.InvariantStatesNeverStop : Prop :=
  ∀ s : State, Inv s → ∃ t, step s = .next t

/-- R97: no cell is read before it is written: in mode LOADING with the load complete, in mode BUSY and
in mode DONE, every cell the engine reads has been written in this job. -/
def Obligations.NoCellReadBeforeWritten : Prop :=
  ∀ s : State, Inv s →
    (s.mode = .loading ∧ s.loadcnt.toNat = s.w.toNat * s.h.toNat) ∨ s.mode = .busy ∨
      s.mode = .done →
    ∀ row col, row < heff s → col < s.w.toNat → (s.canvas.read? (canvasKey row col)).isSome

/-- R40, R147: the only band locations `RDBAND` can read have been written in this job. -/
def Obligations.NoBandReadBeforeWritten : Prop :=
  ∀ (s t : State) (b : BitVec 3) (i : BitVec 18), Inv s →
    exec (.rdband b i) s = .next t → t.resp ≠ s.resp →
    s.mode = .done ∧ (s.band.read? (bandKey b.toNat i.toNat)).isSome

/-- R23, R30, R39: the ready flags of a reachable state are those of the first `n` bands, none outside
BUSY, DONE and FAULT, and all five in DONE. -/
def Obligations.BandReadyValues : Prop :=
  ∀ s : State, Inv s →
    (∃ n, n ≤ 5 ∧ s.bandrdy.toNat = 2 ^ n - 1) ∧
    (s.mode = .idle ∨ s.mode = .loading → s.bandrdy = 0) ∧
    (s.mode = .done → s.bandrdy = 0x1F) ∧
    (s.mode = .fault → s.bandrdy = 0 ∨ s.bandrdy = 0x1F)

/-- Both memories keep their canonical form in every step from every state (log entry 6). -/
def Obligations.MemoriesStayCanonical : Prop :=
  ∀ s t : State, s.canvas.wf = true → s.band.wf = true → step s = .next t →
    t.canvas.wf = true ∧ t.band.wf = true

/-- R13: the parameters are not state: no step from any state changes them (log entry 4). -/
def Obligations.ParametersNeverChange : Prop :=
  ∀ s t : State, step s = .next t → t.params = s.params
end

