-- ==== Sys2Proof/Laws/Coding.lean ====
section
/-! SUPPORT. The fields of an encoded instruction, and the operand maps of the register names. -/

namespace Sys2Proof

theorem opField_encode (i : Instr) : opField (encode i) = i.opcode :=
  BitVec.extractLsb'_append_eq_left

theorem operandField_encode (i : Instr) : operandField (encode i) = i.operand :=
  BitVec.extractLsb'_append_eq_right

theorem writableReg?_num (r : WritableReg) : writableReg? r.num = some r := by
  cases r <;> decide

theorem regName?_num (r : RegName) : regName? r.num = some r := by
  cases r with
  | bandw b => revert b; decide
  | _ => decide

/-- A field of the operand field is a field of the word. -/
theorem extractLsb'_encode {start len : Nat} (i : Instr) (h : start + len ≤ 24) :
    (encode i).extractLsb' start len = i.operand.extractLsb' start len := by
  apply BitVec.eq_of_getLsbD_eq
  intro p hp
  simp only [encode, BitVec.getLsbD_extractLsb', BitVec.getLsbD_append, hp, decide_true, Bool.true_and]
  rw [if_pos (by omega)]

end Sys2Proof
end

