-- ==== Sys2Proof/Laws/State.lean ====
section
/-! SUPPORT. One lemma per field per update of State, true by unfolding, so that no later proof
unfolds a record update. -/

namespace Sys2Proof.Machine

/-! ## canvasWrite -/

@[simp] theorem canvasWrite_mode (row col : Nat) (v : Bit) (s : State) : (canvasWrite row col v s).mode = s.mode := rfl
@[simp] theorem canvasWrite_err (row col : Nat) (v : Bit) (s : State) : (canvasWrite row col v s).err = s.err := rfl
@[simp] theorem canvasWrite_bandrdy (row col : Nat) (v : Bit) (s : State) : (canvasWrite row col v s).bandrdy = s.bandrdy := rfl
@[simp] theorem canvasWrite_cfg (row col : Nat) (v : Bit) (s : State) : (canvasWrite row col v s).cfg = s.cfg := rfl
@[simp] theorem canvasWrite_w (row col : Nat) (v : Bit) (s : State) : (canvasWrite row col v s).w = s.w := rfl
@[simp] theorem canvasWrite_h (row col : Nat) (v : Bit) (s : State) : (canvasWrite row col v s).h = s.h := rfl
@[simp] theorem canvasWrite_ow (row col : Nat) (v : Bit) (s : State) : (canvasWrite row col v s).ow = s.ow := rfl
@[simp] theorem canvasWrite_oh (row col : Nat) (v : Bit) (s : State) : (canvasWrite row col v s).oh = s.oh := rfl
@[simp] theorem canvasWrite_errcmd (row col : Nat) (v : Bit) (s : State) : (canvasWrite row col v s).errcmd = s.errcmd := rfl
@[simp] theorem canvasWrite_loadcnt (row col : Nat) (v : Bit) (s : State) : (canvasWrite row col v s).loadcnt = s.loadcnt := rfl
@[simp] theorem canvasWrite_bandw (row col : Nat) (v : Bit) (s : State) : (canvasWrite row col v s).bandw = s.bandw := rfl
@[simp] theorem canvasWrite_col (row col : Nat) (v : Bit) (s : State) : (canvasWrite row col v s).col = s.col := rfl
@[simp] theorem canvasWrite_pos (row col : Nat) (v : Bit) (s : State) : (canvasWrite row col v s).pos = s.pos := rfl
@[simp] theorem canvasWrite_canvas (row col : Nat) (v : Bit) (s : State) : (canvasWrite row col v s).canvas = s.canvas.write (canvasKey row col) v := rfl
@[simp] theorem canvasWrite_band (row col : Nat) (v : Bit) (s : State) : (canvasWrite row col v s).band = s.band := rfl
@[simp] theorem canvasWrite_resp (row col : Nat) (v : Bit) (s : State) : (canvasWrite row col v s).resp = s.resp := rfl
@[simp] theorem canvasWrite_port (row col : Nat) (v : Bit) (s : State) : (canvasWrite row col v s).port = s.port := rfl
@[simp] theorem canvasWrite_rst (row col : Nat) (v : Bit) (s : State) : (canvasWrite row col v s).rst = s.rst := rfl
@[simp] theorem canvasWrite_params (row col : Nat) (v : Bit) (s : State) : (canvasWrite row col v s).params = s.params := rfl
@[simp] theorem canvasWrite_epoch (row col : Nat) (v : Bit) (s : State) : (canvasWrite row col v s).epoch = s.epoch := rfl

/-! ## bandWrite -/

@[simp] theorem bandWrite_mode (b i : Nat) (v : Byte) (s : State) : (bandWrite b i v s).mode = s.mode := rfl
@[simp] theorem bandWrite_err (b i : Nat) (v : Byte) (s : State) : (bandWrite b i v s).err = s.err := rfl
@[simp] theorem bandWrite_bandrdy (b i : Nat) (v : Byte) (s : State) : (bandWrite b i v s).bandrdy = s.bandrdy := rfl
@[simp] theorem bandWrite_cfg (b i : Nat) (v : Byte) (s : State) : (bandWrite b i v s).cfg = s.cfg := rfl
@[simp] theorem bandWrite_w (b i : Nat) (v : Byte) (s : State) : (bandWrite b i v s).w = s.w := rfl
@[simp] theorem bandWrite_h (b i : Nat) (v : Byte) (s : State) : (bandWrite b i v s).h = s.h := rfl
@[simp] theorem bandWrite_ow (b i : Nat) (v : Byte) (s : State) : (bandWrite b i v s).ow = s.ow := rfl
@[simp] theorem bandWrite_oh (b i : Nat) (v : Byte) (s : State) : (bandWrite b i v s).oh = s.oh := rfl
@[simp] theorem bandWrite_errcmd (b i : Nat) (v : Byte) (s : State) : (bandWrite b i v s).errcmd = s.errcmd := rfl
@[simp] theorem bandWrite_loadcnt (b i : Nat) (v : Byte) (s : State) : (bandWrite b i v s).loadcnt = s.loadcnt := rfl
@[simp] theorem bandWrite_bandw (b i : Nat) (v : Byte) (s : State) : (bandWrite b i v s).bandw = s.bandw := rfl
@[simp] theorem bandWrite_col (b i : Nat) (v : Byte) (s : State) : (bandWrite b i v s).col = s.col := rfl
@[simp] theorem bandWrite_pos (b i : Nat) (v : Byte) (s : State) : (bandWrite b i v s).pos = s.pos := rfl
@[simp] theorem bandWrite_canvas (b i : Nat) (v : Byte) (s : State) : (bandWrite b i v s).canvas = s.canvas := rfl
@[simp] theorem bandWrite_band (b i : Nat) (v : Byte) (s : State) : (bandWrite b i v s).band = s.band.write (bandKey b i) v := rfl
@[simp] theorem bandWrite_resp (b i : Nat) (v : Byte) (s : State) : (bandWrite b i v s).resp = s.resp := rfl
@[simp] theorem bandWrite_port (b i : Nat) (v : Byte) (s : State) : (bandWrite b i v s).port = s.port := rfl
@[simp] theorem bandWrite_rst (b i : Nat) (v : Byte) (s : State) : (bandWrite b i v s).rst = s.rst := rfl
@[simp] theorem bandWrite_params (b i : Nat) (v : Byte) (s : State) : (bandWrite b i v s).params = s.params := rfl
@[simp] theorem bandWrite_epoch (b i : Nat) (v : Byte) (s : State) : (bandWrite b i v s).epoch = s.epoch := rfl

/-! ## respond -/

@[simp] theorem respond_mode (v : Word) (s : State) : (respond v s).mode = s.mode := rfl
@[simp] theorem respond_err (v : Word) (s : State) : (respond v s).err = s.err := rfl
@[simp] theorem respond_bandrdy (v : Word) (s : State) : (respond v s).bandrdy = s.bandrdy := rfl
@[simp] theorem respond_cfg (v : Word) (s : State) : (respond v s).cfg = s.cfg := rfl
@[simp] theorem respond_w (v : Word) (s : State) : (respond v s).w = s.w := rfl
@[simp] theorem respond_h (v : Word) (s : State) : (respond v s).h = s.h := rfl
@[simp] theorem respond_ow (v : Word) (s : State) : (respond v s).ow = s.ow := rfl
@[simp] theorem respond_oh (v : Word) (s : State) : (respond v s).oh = s.oh := rfl
@[simp] theorem respond_errcmd (v : Word) (s : State) : (respond v s).errcmd = s.errcmd := rfl
@[simp] theorem respond_loadcnt (v : Word) (s : State) : (respond v s).loadcnt = s.loadcnt := rfl
@[simp] theorem respond_bandw (v : Word) (s : State) : (respond v s).bandw = s.bandw := rfl
@[simp] theorem respond_col (v : Word) (s : State) : (respond v s).col = s.col := rfl
@[simp] theorem respond_pos (v : Word) (s : State) : (respond v s).pos = s.pos := rfl
@[simp] theorem respond_canvas (v : Word) (s : State) : (respond v s).canvas = s.canvas := rfl
@[simp] theorem respond_band (v : Word) (s : State) : (respond v s).band = s.band := rfl
@[simp] theorem respond_resp (v : Word) (s : State) : (respond v s).resp = s.resp ++ [v] := rfl
@[simp] theorem respond_port (v : Word) (s : State) : (respond v s).port = s.port := rfl
@[simp] theorem respond_rst (v : Word) (s : State) : (respond v s).rst = s.rst := rfl
@[simp] theorem respond_params (v : Word) (s : State) : (respond v s).params = s.params := rfl
@[simp] theorem respond_epoch (v : Word) (s : State) : (respond v s).epoch = s.epoch := rfl

/-! ## raiseFault -/

@[simp] theorem raiseFault_mode (c : ErrCode) (cmd : Word) (s : State) : (raiseFault c cmd s).mode = .fault := rfl
@[simp] theorem raiseFault_err (c : ErrCode) (cmd : Word) (s : State) : (raiseFault c cmd s).err = some c := rfl
@[simp] theorem raiseFault_bandrdy (c : ErrCode) (cmd : Word) (s : State) : (raiseFault c cmd s).bandrdy = s.bandrdy := rfl
@[simp] theorem raiseFault_cfg (c : ErrCode) (cmd : Word) (s : State) : (raiseFault c cmd s).cfg = s.cfg := rfl
@[simp] theorem raiseFault_w (c : ErrCode) (cmd : Word) (s : State) : (raiseFault c cmd s).w = s.w := rfl
@[simp] theorem raiseFault_h (c : ErrCode) (cmd : Word) (s : State) : (raiseFault c cmd s).h = s.h := rfl
@[simp] theorem raiseFault_ow (c : ErrCode) (cmd : Word) (s : State) : (raiseFault c cmd s).ow = s.ow := rfl
@[simp] theorem raiseFault_oh (c : ErrCode) (cmd : Word) (s : State) : (raiseFault c cmd s).oh = s.oh := rfl
@[simp] theorem raiseFault_errcmd (c : ErrCode) (cmd : Word) (s : State) : (raiseFault c cmd s).errcmd = cmd := rfl
@[simp] theorem raiseFault_loadcnt (c : ErrCode) (cmd : Word) (s : State) : (raiseFault c cmd s).loadcnt = s.loadcnt := rfl
@[simp] theorem raiseFault_bandw (c : ErrCode) (cmd : Word) (s : State) : (raiseFault c cmd s).bandw = s.bandw := rfl
@[simp] theorem raiseFault_col (c : ErrCode) (cmd : Word) (s : State) : (raiseFault c cmd s).col = s.col := rfl
@[simp] theorem raiseFault_pos (c : ErrCode) (cmd : Word) (s : State) : (raiseFault c cmd s).pos = s.pos := rfl
@[simp] theorem raiseFault_canvas (c : ErrCode) (cmd : Word) (s : State) : (raiseFault c cmd s).canvas = s.canvas := rfl
@[simp] theorem raiseFault_band (c : ErrCode) (cmd : Word) (s : State) : (raiseFault c cmd s).band = s.band := rfl
@[simp] theorem raiseFault_resp (c : ErrCode) (cmd : Word) (s : State) : (raiseFault c cmd s).resp = s.resp := rfl
@[simp] theorem raiseFault_port (c : ErrCode) (cmd : Word) (s : State) : (raiseFault c cmd s).port = s.port := rfl
@[simp] theorem raiseFault_rst (c : ErrCode) (cmd : Word) (s : State) : (raiseFault c cmd s).rst = s.rst := rfl
@[simp] theorem raiseFault_params (c : ErrCode) (cmd : Word) (s : State) : (raiseFault c cmd s).params = s.params := rfl
@[simp] theorem raiseFault_epoch (c : ErrCode) (cmd : Word) (s : State) : (raiseFault c cmd s).epoch = s.epoch := rfl

/-! ## countPixel -/

@[simp] theorem countPixel_mode (s : State) : (countPixel s).mode = s.mode := rfl
@[simp] theorem countPixel_err (s : State) : (countPixel s).err = s.err := rfl
@[simp] theorem countPixel_bandrdy (s : State) : (countPixel s).bandrdy = s.bandrdy := rfl
@[simp] theorem countPixel_cfg (s : State) : (countPixel s).cfg = s.cfg := rfl
@[simp] theorem countPixel_w (s : State) : (countPixel s).w = s.w := rfl
@[simp] theorem countPixel_h (s : State) : (countPixel s).h = s.h := rfl
@[simp] theorem countPixel_ow (s : State) : (countPixel s).ow = s.ow := rfl
@[simp] theorem countPixel_oh (s : State) : (countPixel s).oh = s.oh := rfl
@[simp] theorem countPixel_errcmd (s : State) : (countPixel s).errcmd = s.errcmd := rfl
@[simp] theorem countPixel_loadcnt (s : State) : (countPixel s).loadcnt = s.loadcnt + 1 := rfl
@[simp] theorem countPixel_bandw (s : State) : (countPixel s).bandw = s.bandw := rfl
@[simp] theorem countPixel_col (s : State) : (countPixel s).col = s.col := rfl
@[simp] theorem countPixel_pos (s : State) : (countPixel s).pos = s.pos := rfl
@[simp] theorem countPixel_canvas (s : State) : (countPixel s).canvas = s.canvas := rfl
@[simp] theorem countPixel_band (s : State) : (countPixel s).band = s.band := rfl
@[simp] theorem countPixel_resp (s : State) : (countPixel s).resp = s.resp := rfl
@[simp] theorem countPixel_port (s : State) : (countPixel s).port = s.port := rfl
@[simp] theorem countPixel_rst (s : State) : (countPixel s).rst = s.rst := rfl
@[simp] theorem countPixel_params (s : State) : (countPixel s).params = s.params := rfl
@[simp] theorem countPixel_epoch (s : State) : (countPixel s).epoch = s.epoch := rfl

/-! ## tickRst -/

@[simp] theorem tickRst_mode (s : State) : (tickRst s).mode = s.mode := rfl
@[simp] theorem tickRst_err (s : State) : (tickRst s).err = s.err := rfl
@[simp] theorem tickRst_bandrdy (s : State) : (tickRst s).bandrdy = s.bandrdy := rfl
@[simp] theorem tickRst_cfg (s : State) : (tickRst s).cfg = s.cfg := rfl
@[simp] theorem tickRst_w (s : State) : (tickRst s).w = s.w := rfl
@[simp] theorem tickRst_h (s : State) : (tickRst s).h = s.h := rfl
@[simp] theorem tickRst_ow (s : State) : (tickRst s).ow = s.ow := rfl
@[simp] theorem tickRst_oh (s : State) : (tickRst s).oh = s.oh := rfl
@[simp] theorem tickRst_errcmd (s : State) : (tickRst s).errcmd = s.errcmd := rfl
@[simp] theorem tickRst_loadcnt (s : State) : (tickRst s).loadcnt = s.loadcnt := rfl
@[simp] theorem tickRst_bandw (s : State) : (tickRst s).bandw = s.bandw := rfl
@[simp] theorem tickRst_col (s : State) : (tickRst s).col = s.col := rfl
@[simp] theorem tickRst_pos (s : State) : (tickRst s).pos = s.pos := rfl
@[simp] theorem tickRst_canvas (s : State) : (tickRst s).canvas = s.canvas := rfl
@[simp] theorem tickRst_band (s : State) : (tickRst s).band = s.band := rfl
@[simp] theorem tickRst_resp (s : State) : (tickRst s).resp = s.resp := rfl
@[simp] theorem tickRst_port (s : State) : (tickRst s).port = s.port := rfl
@[simp] theorem tickRst_rst (s : State) : (tickRst s).rst = s.rst.tail := rfl
@[simp] theorem tickRst_params (s : State) : (tickRst s).params = s.params := rfl
@[simp] theorem tickRst_epoch (s : State) : (tickRst s).epoch = s.epoch := rfl

/-! ## resetState -/

@[simp] theorem resetState_mode (s : State) : (resetState s).mode = .idle := rfl
@[simp] theorem resetState_err (s : State) : (resetState s).err = none := rfl
@[simp] theorem resetState_bandrdy (s : State) : (resetState s).bandrdy = 0 := rfl
@[simp] theorem resetState_cfg (s : State) : (resetState s).cfg = 0 := rfl
@[simp] theorem resetState_w (s : State) : (resetState s).w = 0 := rfl
@[simp] theorem resetState_h (s : State) : (resetState s).h = 120 := rfl
@[simp] theorem resetState_ow (s : State) : (resetState s).ow = 0 := rfl
@[simp] theorem resetState_oh (s : State) : (resetState s).oh = 0 := rfl
@[simp] theorem resetState_errcmd (s : State) : (resetState s).errcmd = 0 := rfl
@[simp] theorem resetState_loadcnt (s : State) : (resetState s).loadcnt = 0 := rfl
@[simp] theorem resetState_bandw (s : State) : (resetState s).bandw = BandWidths.zero := rfl
@[simp] theorem resetState_col (s : State) : (resetState s).col = 0 := rfl
@[simp] theorem resetState_pos (s : State) : (resetState s).pos = Pos.start := rfl
@[simp] theorem resetState_canvas (s : State) : (resetState s).canvas = [] := rfl
@[simp] theorem resetState_band (s : State) : (resetState s).band = [] := rfl
@[simp] theorem resetState_resp (s : State) : (resetState s).resp = s.resp := rfl
@[simp] theorem resetState_port (s : State) : (resetState s).port = s.port := rfl
@[simp] theorem resetState_rst (s : State) : (resetState s).rst = s.rst := rfl
@[simp] theorem resetState_params (s : State) : (resetState s).params = s.params := rfl
@[simp] theorem resetState_epoch (s : State) : (resetState s).epoch = s.epoch + 1 := rfl

/-! ## rstStep -/

@[simp] theorem rstStep_mode (s : State) : (rstStep s).mode = .idle := rfl
@[simp] theorem rstStep_err (s : State) : (rstStep s).err = none := rfl
@[simp] theorem rstStep_bandrdy (s : State) : (rstStep s).bandrdy = 0 := rfl
@[simp] theorem rstStep_cfg (s : State) : (rstStep s).cfg = 0 := rfl
@[simp] theorem rstStep_w (s : State) : (rstStep s).w = 0 := rfl
@[simp] theorem rstStep_h (s : State) : (rstStep s).h = 120 := rfl
@[simp] theorem rstStep_ow (s : State) : (rstStep s).ow = 0 := rfl
@[simp] theorem rstStep_oh (s : State) : (rstStep s).oh = 0 := rfl
@[simp] theorem rstStep_errcmd (s : State) : (rstStep s).errcmd = 0 := rfl
@[simp] theorem rstStep_loadcnt (s : State) : (rstStep s).loadcnt = 0 := rfl
@[simp] theorem rstStep_bandw (s : State) : (rstStep s).bandw = BandWidths.zero := rfl
@[simp] theorem rstStep_col (s : State) : (rstStep s).col = 0 := rfl
@[simp] theorem rstStep_pos (s : State) : (rstStep s).pos = Pos.start := rfl
@[simp] theorem rstStep_canvas (s : State) : (rstStep s).canvas = [] := rfl
@[simp] theorem rstStep_band (s : State) : (rstStep s).band = [] := rfl
@[simp] theorem rstStep_resp (s : State) : (rstStep s).resp = s.resp := rfl
@[simp] theorem rstStep_port (s : State) : (rstStep s).port = portAfterRst s := rfl
@[simp] theorem rstStep_rst (s : State) : (rstStep s).rst = s.rst := rfl
@[simp] theorem rstStep_params (s : State) : (rstStep s).params = s.params := rfl
@[simp] theorem rstStep_epoch (s : State) : (rstStep s).epoch = s.epoch + 1 := rfl

/-! ## writeReg: the fields no `WRREG` writes -/

@[simp] theorem writeReg_mode (r : WritableReg) (v : Half) (s : State) : (writeReg r v s).mode = s.mode := by
  cases r <;> rfl
@[simp] theorem writeReg_err (r : WritableReg) (v : Half) (s : State) : (writeReg r v s).err = s.err := by
  cases r <;> rfl
@[simp] theorem writeReg_bandrdy (r : WritableReg) (v : Half) (s : State) : (writeReg r v s).bandrdy = s.bandrdy := by
  cases r <;> rfl
@[simp] theorem writeReg_errcmd (r : WritableReg) (v : Half) (s : State) : (writeReg r v s).errcmd = s.errcmd := by
  cases r <;> rfl
@[simp] theorem writeReg_loadcnt (r : WritableReg) (v : Half) (s : State) : (writeReg r v s).loadcnt = s.loadcnt := by
  cases r <;> rfl
@[simp] theorem writeReg_bandw (r : WritableReg) (v : Half) (s : State) : (writeReg r v s).bandw = s.bandw := by
  cases r <;> rfl
@[simp] theorem writeReg_col (r : WritableReg) (v : Half) (s : State) : (writeReg r v s).col = s.col := by
  cases r <;> rfl
@[simp] theorem writeReg_pos (r : WritableReg) (v : Half) (s : State) : (writeReg r v s).pos = s.pos := by
  cases r <;> rfl
@[simp] theorem writeReg_canvas (r : WritableReg) (v : Half) (s : State) : (writeReg r v s).canvas = s.canvas := by
  cases r <;> rfl
@[simp] theorem writeReg_band (r : WritableReg) (v : Half) (s : State) : (writeReg r v s).band = s.band := by
  cases r <;> rfl
@[simp] theorem writeReg_resp (r : WritableReg) (v : Half) (s : State) : (writeReg r v s).resp = s.resp := by
  cases r <;> rfl
@[simp] theorem writeReg_port (r : WritableReg) (v : Half) (s : State) : (writeReg r v s).port = s.port := by
  cases r <;> rfl
@[simp] theorem writeReg_rst (r : WritableReg) (v : Half) (s : State) : (writeReg r v s).rst = s.rst := by
  cases r <;> rfl
@[simp] theorem writeReg_params (r : WritableReg) (v : Half) (s : State) : (writeReg r v s).params = s.params := by
  cases r <;> rfl
@[simp] theorem writeReg_epoch (r : WritableReg) (v : Half) (s : State) : (writeReg r v s).epoch = s.epoch := by
  cases r <;> rfl

end Sys2Proof.Machine
end

