-- ==== Sys2Proof/Laws/Memory.lean ====
section
/-! SUPPORT. The laws of memory: a read after a write, and that every memory operation keeps the
canonical form. -/

namespace Sys2Proof.Machine

@[simp] theorem Memory.read?_nil {n : Nat} (k : Nat) : Memory.read? ([] : Memory n) k = none := rfl

/-- Everything a write does to later reads. -/
theorem Memory.read?_write {n : Nat} (m : Memory n) (k j : Nat) (v : BitVec n) :
    (m.write k v).read? j = if j = k then some v else m.read? j := by
  induction m with
  | nil => simp [Memory.write, Memory.read?]
  | cons c m ih =>
    obtain ⟨a, u⟩ := c
    unfold Memory.write
    split
    · simp [Memory.read?]
    · split
      · next h => subst h; by_cases h : j = k <;> simp [Memory.read?, h]
      · next h1 h2 =>
        simp only [Memory.read?, ih]
        by_cases h : j = a
        · subst h; simp [Ne.symm h2]
        · simp [h]

theorem Memory.read?_write_same {n : Nat} (m : Memory n) (k : Nat) (v : BitVec n) :
    (m.write k v).read? k = some v := by simp [Memory.read?_write]

theorem Memory.read?_write_other {n : Nat} (m : Memory n) {k j : Nat} (v : BitVec n) (h : j ≠ k) :
    (m.write k v).read? j = m.read? j := by simp [Memory.read?_write, h]

@[simp] theorem Memory.wf_nil {n : Nat} : Memory.wf ([] : Memory n) = true := rfl

/-- The canonical form says: every later key is above the first, and the rest is canonical. -/
theorem Memory.wf_cons {n : Nat} (a : Nat) (u : BitVec n) (m : Memory n) :
    Memory.wf ((a, u) :: m) = true ↔ (∀ c ∈ m, a < c.1) ∧ m.wf = true := by
  induction m generalizing a u with
  | nil => simp [Memory.wf]
  | cons c m ih =>
    obtain ⟨b, v⟩ := c
    simp only [Memory.wf, Bool.and_eq_true, decide_eq_true_eq, List.mem_cons, forall_eq_or_imp]
    constructor
    · rintro ⟨hab, hw⟩
      exact ⟨⟨hab, fun c hc => Nat.lt_trans hab (((ih b v).1 hw).1 c hc)⟩, hw⟩
    · rintro ⟨⟨hab, _⟩, hw⟩
      exact ⟨hab, hw⟩

theorem Memory.mem_write {n : Nat} (m : Memory n) (k : Nat) (v : BitVec n) (c : Nat × BitVec n)
    (h : c ∈ m.write k v) : c = (k, v) ∨ c ∈ m := by
  induction m with
  | nil => simpa [Memory.write] using h
  | cons d m ih =>
    obtain ⟨a, u⟩ := d
    unfold Memory.write at h
    split at h
    · simpa using h
    · split at h
      · simp only [List.mem_cons] at h ⊢
        tauto
      · simp only [List.mem_cons] at h ⊢
        rcases h with h | h
        · exact .inr (.inl h)
        · exact (ih h).imp id .inr

/-- A write keeps the canonical form. -/
theorem Memory.wf_write {n : Nat} (m : Memory n) (k : Nat) (v : BitVec n) (h : m.wf = true) :
    (m.write k v).wf = true := by
  induction m with
  | nil => rfl
  | cons c m ih =>
    obtain ⟨a, u⟩ := c
    have ⟨hlt, hm⟩ := (Memory.wf_cons a u m).1 h
    unfold Memory.write
    split
    · next hk =>
      refine (Memory.wf_cons k v _).2 ⟨fun c hc => ?_, h⟩
      rcases List.mem_cons.1 hc with rfl | hc
      · exact hk
      · exact Nat.lt_trans hk (hlt c hc)
    · split
      · next hk => subst hk; exact (Memory.wf_cons _ v m).2 ⟨hlt, hm⟩
      · refine (Memory.wf_cons a u _).2 ⟨fun c hc => ?_, ih hm⟩
        rcases Memory.mem_write m k v c hc with rfl | hc
        · show a < k; omega
        · exact hlt c hc

/-- No two cells share a key: a column is below 65536. -/
theorem canvasKey_inj {r c r' c' : Nat} (hc : c < 65536) (hc' : c' < 65536) :
    canvasKey r c = canvasKey r' c' ↔ r = r' ∧ c = c' := by
  unfold canvasKey; omega

/-- No two locations share a key: an index is below `2^18`. -/
theorem bandKey_inj {b i b' i' : Nat} (hi : i < 262144) (hi' : i' < 262144) :
    bandKey b i = bandKey b' i' ↔ b = b' ∧ i = i' := by
  unfold bandKey; omega

theorem wmax_pos (s : State) : 1 ≤ wmax s := s.params.wmax.2.1

theorem wmax_le (s : State) : wmax s ≤ 65535 := s.params.wmax.2.2

/-- `CanvasRead` after `CanvasWrite` (R9, R53). -/
theorem canvasRead_canvasWrite (s : State) (row col row' col' : Nat) (v : Bit)
    (hc : col < 65536) (hc' : col' < 65536) :
    canvasRead (canvasWrite row col v s) row' col'
      = if row' = row ∧ col' = col then v else canvasRead s row' col' := by
  unfold canvasRead
  simp only [canvasWrite_canvas, canvasWrite_epoch, Memory.read?_write, canvasKey_inj hc' hc]
  split <;> simp

/-- `BandRead` after `BandWrite` (R9, R53). -/
theorem bandRead_bandWrite (s : State) (b i b' i' : Nat) (v : Byte)
    (hi : i < 262144) (hi' : i' < 262144) :
    bandRead (bandWrite b i v s) b' i' = if b' = b ∧ i' = i then v else bandRead s b' i' := by
  unfold bandRead
  simp only [bandWrite_band, bandWrite_epoch, Memory.read?_write, bandKey_inj hi' hi]
  split <;> simp

end Sys2Proof.Machine
end

