-- ==== Sys2Proof/Laws/Exec.lean ====
section
/-! SUPPORT. What the shared operations, a meaning, an engine step and a step can do, said once each:
a prover cites these instead of unfolding `attempt`, `exec`, `engineStep` or `step`. -/

namespace Sys2Proof.Machine

/-! ## The execution procedure -/

theorem attempt_of_ok {i : Instr} {op : State → Result} {s : State} (hw : i.wf = true)
    (hp : permission i s.mode = .ok) : attempt i op s = op s := by simp [attempt, hw, hp]

theorem attempt_of_seq {i : Instr} {op : State → Result} {s : State} (hw : i.wf = true)
    (hp : permission i s.mode = .seq) : attempt i op s = .next (raiseFault .seq (encode i) s) := by
  simp [attempt, hw, hp]

theorem attempt_of_discard {i : Instr} {op : State → Result} {s : State} (hw : i.wf = true)
    (hp : permission i s.mode = .discard) : attempt i op s = .next s := by simp [attempt, hw, hp]

theorem attempt_of_busy {i : Instr} {op : State → Result} {s : State} (hm : s.mode = .busy) :
    attempt i op s = .next s := by
  cases i <;> simp [attempt, illegalWord, permission, alwaysRow, onlyInRow, hm]

/-- A mode a word is accepted in and a fault can be raised in (R128). -/
def faultable (m : Mode) : Prop := m = .idle ∨ m = .loading ∨ m = .done

/-- Everything the procedure for an illegal word can do. -/
theorem illegalWord_next (cmd : Word) (s : State) :
    (¬ faultable s.mode ∧ illegalWord cmd s = .next s) ∨
    (faultable s.mode ∧ illegalWord cmd s = .next (raiseFault .illcmd cmd s)) := by
  unfold illegalWord faultable
  cases h : s.mode <;> simp

theorem permission_seq_faultable {i : Instr} {m : Mode} (h : permission i m = .seq) :
    faultable m := by
  unfold faultable
  cases m <;> cases i <;> simp [permission, alwaysRow, onlyInRow] at h ⊢

/-- Everything the execution procedure can do: nothing, a fault of step 1 or 4, or the operation in a
permitted mode. -/
theorem attempt_cases (i : Instr) (op : State → Result) (s : State) :
    attempt i op s = .next s ∨
    (faultable s.mode ∧ ∃ c, attempt i op s = .next (raiseFault c (encode i) s)) ∨
    (i.wf = true ∧ permission i s.mode = .ok ∧ attempt i op s = op s) := by
  by_cases hw : i.wf = true
  · cases hp : permission i s.mode with
    | ok => exact .inr (.inr ⟨hw, rfl, attempt_of_ok hw hp⟩)
    | seq => exact .inr (.inl ⟨permission_seq_faultable hp, _, attempt_of_seq hw hp⟩)
    | wait => left; simp [attempt, hw, hp]
    | discard => left; exact attempt_of_discard hw hp
  · have ha : attempt i op s = illegalWord (encode i) s := by simp [attempt, hw]
    rcases illegalWord_next (encode i) s with ⟨_, h⟩ | ⟨hf, h⟩
    · exact .inl (ha.trans h)
    · exact .inr (.inl ⟨hf, _, ha.trans h⟩)

/-! ## A meaning -/

/-- The operation of each command's rule, which the execution procedure runs in a permitted mode. -/
def operationOf : Instr → State → Result
  | .nop => .next
  | .wrreg r imm16 => fun s => .next (writeReg r imm16 s)
  | .rdreg r => fun s => .next (respond (readReg r s) s)
  | .calcDims => calcOperation
  | .beginLoad => beginOperation
  | .push p => pushOperation p
  | .encode => encodeOperation
  | .rdband b i => rdbandOperation b i
  | .srst => fun s => .next (resetState s)

/-- Every meaning is the execution procedure around its operation (R124). -/
theorem exec_eq_attempt (i : Instr) (s : State) : exec i s = attempt i (operationOf i) s := by
  cases i <;> rfl

theorem exec_of_ok {i : Instr} {s : State} (hw : i.wf = true) (hp : permission i s.mode = .ok) :
    exec i s = operationOf i s := (exec_eq_attempt i s).trans (attempt_of_ok hw hp)

theorem exec_of_seq {i : Instr} {s : State} (hw : i.wf = true) (hp : permission i s.mode = .seq) :
    exec i s = .next (raiseFault .seq (encode i) s) :=
  (exec_eq_attempt i s).trans (attempt_of_seq hw hp)

theorem exec_of_discard {i : Instr} {s : State} (hw : i.wf = true)
    (hp : permission i s.mode = .discard) : exec i s = .next s :=
  (exec_eq_attempt i s).trans (attempt_of_discard hw hp)

theorem exec_of_busy {i : Instr} {s : State} (hm : s.mode = .busy) : exec i s = .next s :=
  (exec_eq_attempt i s).trans (attempt_of_busy hm)

/-- The effect a command has when it neither faults nor is discarded: its guard and its next state. -/
def Effect : Instr → State → State → Prop
  | .nop, s, t => t = s
  | .wrreg r imm16, s, t => s.mode = .idle ∧ t = writeReg r imm16 s
  | .rdreg r, s, t => s.mode ≠ .busy ∧ t = respond (readReg r s) s
  | .calcDims, s, t => s.mode = .idle ∧ s.ow ≠ 0 ∧ s.oh ≠ 0 ∧ calcWidth s ≤ wmax s ∧
      t = { s with w := BitVec.ofNat 16 (calcWidth s), h := 120 }
  | .beginLoad, s, t => s.mode = .idle ∧ s.w ≠ 0 ∧ s.w.toNat ≤ wmax s ∧ s.h ≠ 0 ∧
      t = { s with loadcnt := 0, mode := .loading }
  | .push p, s, t => s.mode = .loading ∧ s.loadcnt.toNat ≠ pixelCount s ∧ s.w ≠ 0 ∧
      (loadRow s < 120 ∧ loadCol s < wmax s ∧
        t = countPixel (canvasWrite (loadRow s) (loadCol s) (p ^^^ invBit s) s) ∨
       120 ≤ loadRow s ∧ t = countPixel s)
  | .encode, s, t => s.mode = .loading ∧ pixelCount s ≤ s.loadcnt.toNat ∧
      t = { s with pos := Pos.start, mode := .busy }
  | .rdband b i, s, t => s.mode = .done ∧ b.toNat < 5 ∧ i.toNat < 3 * s.w.toNat ∧
      i.toNat < 3 * wmax s ∧ t = respond ((bandRead s b.toNat i.toNat).setWidth 32) s
  | .srst, s, t => s.mode ≠ .busy ∧ t = resetState s

theorem permission_always_ok {m : Mode} (h : alwaysRow m = .ok) : m ≠ .busy := by
  cases m <;> simp [alwaysRow] at h ⊢

theorem permission_only_ok {m m' : Mode} (h : onlyInRow m m' = .ok) : m' = m := by
  cases m <;> cases m' <;> simp [onlyInRow] at h ⊢

/-- Everything a command can do when it answers a next state: nothing (it waits, is discarded, or is
`NOP`), fault entry with its own word, or its effect. -/
theorem exec_next {i : Instr} {s t : State} (h : exec i s = .next t) :
    t = s ∨ (faultable s.mode ∧ ∃ c, t = raiseFault c (encode i) s) ∨
      (i.wf = true ∧ Effect i s t) := by
  rw [exec_eq_attempt] at h
  rcases attempt_cases i (operationOf i) s with h1 | ⟨hf, c, h1⟩ | ⟨hw, hp, h1⟩
  · rw [h1] at h; cases h; exact .inl rfl
  · rw [h1] at h; cases h; exact .inr (.inl ⟨hf, c, rfl⟩)
  rw [h1] at h
  cases i with
  | nop => cases h; exact .inl rfl
  | wrreg r imm16 => cases h; exact .inr (.inr ⟨hw, permission_only_ok hp, rfl⟩)
  | rdreg r => cases h; exact .inr (.inr ⟨hw, permission_always_ok hp, rfl⟩)
  | calcDims =>
    have hm := permission_only_ok hp
    simp only [operationOf, calcOperation] at h
    split at h
    · cases h; exact .inr (.inl ⟨.inl hm, _, rfl⟩)
    · split at h
      · cases h; exact .inr (.inl ⟨.inl hm, _, rfl⟩)
      · next h1 h2 => cases h; exact .inr (.inr ⟨hw, hm, by tauto, by tauto, by omega, rfl⟩)
  | beginLoad =>
    have hm := permission_only_ok hp
    simp only [operationOf, beginOperation] at h
    split at h
    · cases h; exact .inr (.inl ⟨.inl hm, _, rfl⟩)
    · split at h
      · cases h; exact .inr (.inl ⟨.inl hm, _, rfl⟩)
      · split at h
        · cases h; exact .inr (.inl ⟨.inl hm, _, rfl⟩)
        · next h1 h2 h3 => cases h; exact .inr (.inr ⟨hw, hm, h1, by omega, h3, rfl⟩)
  | push p =>
    have hm := permission_only_ok hp
    simp only [operationOf, pushOperation] at h
    split at h
    · cases h; exact .inr (.inl ⟨.inr (.inl hm), _, rfl⟩)
    · split at h
      · cases h
      · split at h
        · split at h
          · next h1 h2 h3 h4 =>
            cases h
            simp only [inCanvas, Bool.and_eq_true, decide_eq_true_eq] at h4
            exact .inr (.inr ⟨hw, hm, h1, h2, .inl ⟨h3, h4.2, rfl⟩⟩)
          · cases h
        · next h1 h2 h3 =>
          cases h
          exact .inr (.inr ⟨hw, hm, h1, h2, .inr ⟨by omega, rfl⟩⟩)
  | encode =>
    have hm := permission_only_ok hp
    simp only [operationOf, encodeOperation] at h
    split at h
    · cases h; exact .inr (.inl ⟨.inr (.inl hm), _, rfl⟩)
    · cases h; exact .inr (.inr ⟨hw, hm, by omega, rfl⟩)
  | rdband b i =>
    have hm := permission_only_ok hp
    simp only [operationOf, rdbandOperation] at h
    split at h
    · cases h; exact .inr (.inl ⟨.inr (.inr hm), _, rfl⟩)
    · split at h
      · next h1 h2 =>
        cases h
        simp only [inBand, Bool.and_eq_true, decide_eq_true_eq] at h2
        exact .inr (.inr ⟨hw, hm, by omega, by omega, h2.2, rfl⟩)
      · cases h
  | srst => cases h; exact .inr (.inr ⟨hw, permission_always_ok hp, rfl⟩)

/-! ## An engine step -/

/-- The state an engine step leaves before `POS` advances: `COL'` held and one byte written (R105). -/
def engineWrite (s : State) : State :=
  bandWrite s.pos.b.val (posIndex s.pos) (byteOf (byteOrd s) (nextCol s) s.pos.k)
    { s with col := nextCol s }

@[simp] theorem engineWrite_band (s : State) : (engineWrite s).band =
    s.band.write (bandKey s.pos.b.val (posIndex s.pos)) (byteOf (byteOrd s) (nextCol s) s.pos.k) := rfl
@[simp] theorem engineWrite_col (s : State) : (engineWrite s).col = nextCol s := rfl
@[simp] theorem engineWrite_mode (s : State) : (engineWrite s).mode = s.mode := rfl
@[simp] theorem engineWrite_err (s : State) : (engineWrite s).err = s.err := rfl
@[simp] theorem engineWrite_bandrdy (s : State) : (engineWrite s).bandrdy = s.bandrdy := rfl
@[simp] theorem engineWrite_cfg (s : State) : (engineWrite s).cfg = s.cfg := rfl
@[simp] theorem engineWrite_w (s : State) : (engineWrite s).w = s.w := rfl
@[simp] theorem engineWrite_h (s : State) : (engineWrite s).h = s.h := rfl
@[simp] theorem engineWrite_ow (s : State) : (engineWrite s).ow = s.ow := rfl
@[simp] theorem engineWrite_oh (s : State) : (engineWrite s).oh = s.oh := rfl
@[simp] theorem engineWrite_errcmd (s : State) : (engineWrite s).errcmd = s.errcmd := rfl
@[simp] theorem engineWrite_loadcnt (s : State) : (engineWrite s).loadcnt = s.loadcnt := rfl
@[simp] theorem engineWrite_bandw (s : State) : (engineWrite s).bandw = s.bandw := rfl
@[simp] theorem engineWrite_pos (s : State) : (engineWrite s).pos = s.pos := rfl
@[simp] theorem engineWrite_canvas (s : State) : (engineWrite s).canvas = s.canvas := rfl
@[simp] theorem engineWrite_resp (s : State) : (engineWrite s).resp = s.resp := rfl
@[simp] theorem engineWrite_port (s : State) : (engineWrite s).port = s.port := rfl
@[simp] theorem engineWrite_rst (s : State) : (engineWrite s).rst = s.rst := rfl
@[simp] theorem engineWrite_params (s : State) : (engineWrite s).params = s.params := rfl
@[simp] theorem engineWrite_epoch (s : State) : (engineWrite s).epoch = s.epoch := rfl

/-- Everything an engine step can do when it answers a next state. -/
theorem engineStep_next {s t : State} (h : engineStep s = .next t) :
    s.pos.x.toNat < wmax s ∧ t = advance (engineWrite s) := by
  unfold engineStep at h
  split at h
  · next hx => cases h; exact ⟨hx, rfl⟩
  · split at h <;> cases h

theorem engineStep_of_lt {s : State} (h : s.pos.x.toNat < wmax s) :
    engineStep s = .next (advance (engineWrite s)) := by simp [engineStep, h, engineWrite]

/-- Everything the advance of `POS` can do (R22, R105): next byte, next column, next band, end. -/
theorem advance_cases (s : State) :
    (∃ h : s.pos.k.val + 1 < 3,
      advance s = { s with pos := { s.pos with k := ⟨s.pos.k.val + 1, h⟩ } }) ∨
    (s.pos.k = 2 ∧ s.pos.x.toNat + 1 < s.w.toNat ∧
      advance s = { s with pos := { s.pos with x := s.pos.x + 1, k := 0 } }) ∨
    (s.pos.k = 2 ∧ s.w.toNat ≤ s.pos.x.toNat + 1 ∧ ∃ h : s.pos.b.val + 1 < 5,
      advance s = { s with
        bandw := s.bandw.set s.pos.b s.w, bandrdy := setBandRdy s.pos.b s.bandrdy,
        pos := { b := ⟨s.pos.b.val + 1, h⟩, x := 0, k := 0 } }) ∨
    (s.pos.k = 2 ∧ s.w.toNat ≤ s.pos.x.toNat + 1 ∧ s.pos.b = 4 ∧
      advance s = { s with
        bandw := s.bandw.set s.pos.b s.w, bandrdy := setBandRdy s.pos.b s.bandrdy,
        pos := Pos.start, mode := .done }) := by
  by_cases hk : s.pos.k.val + 1 < 3
  · exact .inl ⟨hk, by simp [advance, hk]⟩
  · have hk2 : s.pos.k = 2 := by have := s.pos.k.isLt; apply Fin.ext; show _ = 2; omega
    by_cases hx : s.pos.x.toNat + 1 < s.w.toNat
    · exact .inr (.inl ⟨hk2, hx, by simp [advance, hk, hx]⟩)
    · by_cases hb : s.pos.b.val + 1 < 5
      · exact .inr (.inr (.inl ⟨hk2, by omega, hb, by simp [advance, hk, hx, finishBand, hb]⟩))
      · have hb4 : s.pos.b = 4 := by have := s.pos.b.isLt; apply Fin.ext; show _ = 4; omega
        exact .inr (.inr (.inr ⟨hk2, by omega, hb4, by simp [advance, hk, hx, finishBand, hb]⟩))

/-! ## A step -/

/-- Everything a step can do when it answers a next state (R139, R146, R124). -/
theorem step_next {s t : State} (h : step s = .next t) :
    (rstHigh s = true ∧ t = rstStep (tickRst s)) ∨
    (rstHigh s = false ∧ s.mode = .busy ∧ engineStep (tickRst s) = .next t) ∨
    (rstHigh s = false ∧ s.mode ≠ .busy ∧ s.port = [] ∧ t = tickRst s) ∨
    (rstHigh s = false ∧ s.mode ≠ .busy ∧ ∃ cmd rest, s.port = cmd :: rest ∧
      ((∃ i, decode cmd = .ok i ∧ exec i { tickRst s with port := rest } = .next t) ∨
       (∃ e, decode cmd = .error e ∧
        illegalWord cmd { tickRst s with port := rest } = .next t))) := by
  unfold step at h
  split at h
  · next hr => cases h; exact .inl ⟨hr, rfl⟩
  · next hr =>
    have hr : rstHigh s = false := by simpa using hr
    split at h
    · next hb => exact .inr (.inl ⟨hr, hb, h⟩)
    · next hb =>
      unfold portStep at h
      cases hp : s.port with
      | nil =>
        simp only [tickRst_port, hp] at h
        cases h; exact .inr (.inr (.inl ⟨hr, hb, rfl, rfl⟩))
      | cons cmd rest =>
        simp only [tickRst_port, hp, executeWord] at h
        refine .inr (.inr (.inr ⟨hr, hb, cmd, rest, rfl, ?_⟩))
        cases hd : decode cmd with
        | ok i => rw [hd] at h; exact .inl ⟨i, rfl, h⟩
        | error e => rw [hd] at h; exact .inr ⟨e, rfl, h⟩

end Sys2Proof.Machine
end

