-- ==== Sys2Proof/Laws/PerInstr.lean ====
section
/-! SUPPORT. Statements about instructions as syntax, one lemma per constructor. `EncodeFields`: the
word of an instruction carries its opcode in bits 31 to 24 and its operand field in bits 23 to 0
(spec/30_encoding.md R65). -/

namespace Sys2Proof.Laws.EncodeFields

/-- The opcode and the operand field of the word of `i` (R65). -/
def Statement (i : Instr) : Prop :=
  (encode i).extractLsb' 24 8 = i.opcode ∧ (encode i).extractLsb' 0 24 = i.operand

theorem statement_of (i : Instr) : Statement i := ⟨opField_encode i, operandField_encode i⟩

theorem nop : Statement .nop := statement_of _
theorem wrreg (reg : WritableReg) (imm16 : Half) : Statement (.wrreg reg imm16) := statement_of _
theorem rdreg (reg : RegName) : Statement (.rdreg reg) := statement_of _
theorem calcDims : Statement .calcDims := statement_of _
theorem beginLoad : Statement .beginLoad := statement_of _
theorem push (p : Bit) : Statement (.push p) := statement_of _
theorem encode : Statement .encode := statement_of _
theorem rdband (b : BitVec 3) (i : BitVec 18) : Statement (.rdband b i) := statement_of _
theorem srst : Statement .srst := statement_of _

end Sys2Proof.Laws.EncodeFields
end

