-- ==== Sys2Proof/Laws/Transform.lean ====
section
/-! SUPPORT. The transform bit by bit: what each bit of `ColWord` is, what each bit of `ByteOf` is, and
that both depend only on what the rules say they read (R100, R101). -/

namespace Sys2Proof.Machine

theorem bit_getLsbD (c : Bit) (n : Nat) : c.getLsbD n = (decide (n = 0) && decide (c = 1)) := by
  have hc : c = 0 ∨ c = 1 := by revert c; decide
  rcases hc with rfl | rfl
  · simp
  · simp [BitVec.getLsbD_one]

theorem putBit_getLsbD (w : Col) (pos p : Nat) (c : Bit) :
    (putBit w pos c).getLsbD p =
      (w.getLsbD p || (decide (p < 24) && decide (p = pos) && decide (c = 1))) := by
  simp only [putBit, BitVec.getLsbD_or, BitVec.getLsbD_shiftLeft, BitVec.getLsbD_setWidth, bit_getLsbD]
  congr 1
  rw [Bool.eq_iff_iff]
  simp only [Bool.and_eq_true, Bool.not_eq_true', decide_eq_true_eq, decide_eq_false_iff_not]
  constructor
  · rintro ⟨⟨h1, h2⟩, -, h3, h4⟩; exact ⟨⟨h1, by omega⟩, h4⟩
  · rintro ⟨⟨h1, rfl⟩, h4⟩; exact ⟨⟨h1, by omega⟩, by omega, by omega, h4⟩

theorem foldl_putBit_getLsbD (pos : Nat → Nat) (f : Nat → Bit) (n p : Nat) :
    ((List.range n).foldl (fun w r => putBit w (pos r) (f r)) 0).getLsbD p = true ↔
      p < 24 ∧ ∃ r, r < n ∧ pos r = p ∧ f r = 1 := by
  induction n with
  | zero => simp
  | succ n ih =>
    rw [List.range_succ, List.foldl_append, List.foldl_cons, List.foldl_nil, putBit_getLsbD]
    simp only [Bool.or_eq_true, ih, Bool.and_eq_true, decide_eq_true_eq]
    constructor
    · rintro (⟨hp, r, hr, h⟩ | ⟨⟨hp, rfl⟩, h⟩)
      · exact ⟨hp, r, by omega, h⟩
      · exact ⟨hp, n, by omega, rfl, h⟩
    · rintro ⟨hp, r, hr, h1, h2⟩
      rcases Nat.lt_succ_iff_lt_or_eq.1 hr with hr | rfl
      · exact .inl ⟨hp, r, hr, h1, h2⟩
      · exact .inr ⟨⟨hp, h1.symm⟩, h2⟩

theorem rowBit_lt (o : Bool) {r : Nat} (h : r < 24) : rowBit o r < 24 := by
  unfold rowBit; split <;> omega

theorem rowBit_inj (o : Bool) {r r' : Nat} (h : r < 24) (h' : r' < 24) :
    rowBit o r = rowBit o r' ↔ r = r' := by
  unfold rowBit; split <;> omega

/-- The bit map of the rows is its own inverse. -/
theorem rowBit_rowBit (o : Bool) {r : Nat} (h : r < 24) : rowBit o (rowBit o r) = r := by
  unfold rowBit; split <;> omega

/-- Bit `p` of the column word is the cell of the relative row that goes to bit `p` (R100). -/
theorem colWord_getLsbD (s : State) (b x p : Nat) :
    (colWord s b x).getLsbD p =
      (decide (p < 24) && decide (bandCell s b (rowBit (rowOrd s) p) x = 1)) := by
  rw [Bool.eq_iff_iff]
  unfold colWord
  rw [foldl_putBit_getLsbD (rowBit (rowOrd s)) (fun r => bandCell s b r x)]
  simp only [Bool.and_eq_true, decide_eq_true_eq]
  constructor
  · rintro ⟨hp, r, hr, rfl, h⟩
    exact ⟨hp, by rwa [rowBit_rowBit _ hr]⟩
  · rintro ⟨hp, h⟩
    exact ⟨hp, _, rowBit_lt _ hp, rowBit_rowBit _ hp, h⟩

/-- `ByteOf(w, k) = w[8s + 7 : 8s]` with `s = 2 - k` or `k` (R101). -/
theorem byteOf_getLsbD (o : Bool) (w : Col) (k : Fin 3) (p : Nat) :
    (byteOf o w k).getLsbD p =
      (decide (p < 8) && w.getLsbD (8 * (if o then k.val else 2 - k.val) + p)) := by
  cases o <;> fin_cases k <;> simp [byteOf]

/-- The column word reads the canvas, `H` and `ROWORD` and nothing else (R100). -/
theorem colWord_congr {s t : State} (b x : Nat) (ho : rowOrd s = rowOrd t)
    (hc : ∀ r, r < 24 → bandCell s b r x = bandCell t b r x) : colWord s b x = colWord t b x := by
  apply BitVec.eq_of_getLsbD_eq
  intro p hp
  rw [colWord_getLsbD, colWord_getLsbD, ho, hc _ (rowBit_lt _ hp)]

theorem encodedByte_congr {s t : State} (b i : Nat) (ho : rowOrd s = rowOrd t)
    (hb : byteOrd s = byteOrd t)
    (hc : ∀ r, r < 24 → bandCell s b r (i / 3) = bandCell t b r (i / 3)) :
    encodedByte s b i = encodedByte t b i := by
  unfold encodedByte
  rw [hb, colWord_congr b (i / 3) ho hc]

/-- Two states with the same canvas, epoch, `H` and `CFG` have the same column words. -/
theorem colWord_eq_of {s t : State} (hcv : s.canvas = t.canvas) (he : s.epoch = t.epoch)
    (hh : s.h = t.h) (hcfg : s.cfg = t.cfg) (b x : Nat) : colWord s b x = colWord t b x := by
  apply colWord_congr
  · simp [rowOrd, hcfg]
  · intro r _; simp [bandCell, heff, canvasRead, hcv, he, hh]

theorem encodedByte_eq_of {s t : State} (hcv : s.canvas = t.canvas) (he : s.epoch = t.epoch)
    (hh : s.h = t.h) (hcfg : s.cfg = t.cfg) (b i : Nat) : encodedByte s b i = encodedByte t b i := by
  simp [encodedByte, byteOrd, hcfg, colWord_eq_of hcv he hh hcfg]

/-! ## What the advance of `POS` leaves alone -/

theorem advance_frame (s : State) :
    (advance s).err = s.err ∧ (advance s).cfg = s.cfg ∧ (advance s).w = s.w ∧ (advance s).h = s.h ∧
    (advance s).ow = s.ow ∧ (advance s).oh = s.oh ∧ (advance s).errcmd = s.errcmd ∧
    (advance s).loadcnt = s.loadcnt ∧ (advance s).col = s.col ∧ (advance s).canvas = s.canvas ∧
    (advance s).band = s.band ∧ (advance s).resp = s.resp ∧ (advance s).port = s.port ∧
    (advance s).rst = s.rst ∧ (advance s).params = s.params ∧ (advance s).epoch = s.epoch := by
  rcases advance_cases s with ⟨_, h⟩ | ⟨_, _, h⟩ | ⟨_, _, _, h⟩ | ⟨_, _, _, h⟩ <;> simp [h]

end Sys2Proof.Machine
end

