-- ==== Sys2Proof/Tests/Slice0.lean ====
section
/-! SUPPORT. Tests of the model: expected results are the spec's own vectors (spec/95_test_vectors.md),
named in each comment, or words written out by hand from spec/30_encoding.md; and for every statement
with hypotheses a witness that meets them. -/

namespace Sys2Proof.Tests

-- One theorem after another: the many small theorems of this file would otherwise each ask for a thread.
set_option Elab.async false

open Sys2Proof Sys2Proof.Machine

/-- A field of the next state, if there is a next state. -/
def after {α : Type} (f : State → α) (r : Result) : Option α :=
  match r with
  | .next t => some (f t)
  | .fault _ => none
  | .refused _ => none

theorem next_of_after {r : Result} {t : State} (h : after id r = some t) : r = .next t := by
  cases r with
  | next s => cases h; rfl
  | fault _ => cases h
  | refused _ => cases h

/-- One word presented to a state, and one step. -/
def send (w : Word) (s : State) : Result := step (presentWord w s)

/-- What is recorded of a fault, with the mode. -/
def faultOf (s : State) : Mode × Option ErrCode × Word := (s.mode, s.err, s.errcmd)

def half (wmax : MaxWidth) : Params := { wmax := wmax, roundTie := .halfUp }

/-- Parameters `WMAX = 1000`, `ROUND_TIE = half_up`, as V-C2 and V-F1 take `WMAX`. -/
def p1000 : Params := half ⟨1000, by decide⟩

/-! ## States of the worked example V-P1, V-E2, V-E6: `W = 2`, `H = 3`, rows "10", "01", "11" -/

def vpLoad : State := { State.reset with w := 2, h := 3, mode := .loading }

def vpCanvas : Memory 1 := [(0, 1), (1, 0), (65536, 0), (65537, 1), (131072, 1), (131073, 1)]

def vpFull : State := { vpLoad with loadcnt := 6, canvas := vpCanvas }

def vpBusy (b : Fin 5) (x : Half) (k : Fin 3) (col : Col) : State :=
  { vpFull with mode := .busy, pos := { b := b, x := x, k := k }, col := col }

def vpDone : State :=
  { vpFull with
    mode := .done
    bandrdy := 0x1F
    bandw := { b0 := 2, b1 := 2, b2 := 2, b3 := 2, b4 := 2 }
    band := [(0, 0xA0), (1, 0), (2, 0), (3, 0x60), (4, 0), (5, 0)] }

/-! ## Well-formedness and decoding -/

-- R25, R73: bit 4 of the operand of `WRREG CFG` is set.
theorem test_wf_refuses_cfg_bit4 : (Instr.wrreg .cfg 0x0010).wf = false := by decide
theorem test_wf_refuses_cfg_bit15 : (Instr.wrreg .cfg 0x8000).wf = false := by decide
theorem test_wf_accepts_cfg_15 : (Instr.wrreg .cfg 0x000F).wf = true := by decide

-- Words written out bit by bit from the encodings of R70: opcode, then the operand field.
theorem test_decode_nop : decode 0b00000000_000000000000000000000000#32 = .ok .nop := by decide
theorem test_decode_wrreg_w :
    decode 0b00000001_00000010_1000000000000001#32 = .ok (.wrreg .w 0x8001) := by decide
theorem test_decode_wrreg_cfg :
    decode 0b00000001_00000001_0000000000001010#32 = .ok (.wrreg .cfg 10) := by decide
theorem test_decode_wrreg_oh :
    decode 0b00000001_00000101_0000000000000001#32 = .ok (.wrreg .oh 1) := by decide
theorem test_decode_rdreg_loadcnt :
    decode 0b00000010_00000111_0000000000000000#32 = .ok (.rdreg .loadcnt) := by decide
theorem test_decode_rdreg_bandw4 :
    decode 0b00000010_00001100_0000000000000000#32 = .ok (.rdreg (.bandw 4)) := by decide
theorem test_decode_calc :
    decode 0b00000011_000000000000000000000000#32 = .ok .calcDims := by decide
theorem test_decode_begin :
    decode 0b00000100_000000000000000000000000#32 = .ok .beginLoad := by decide
theorem test_decode_push_1 :
    decode 0b00000101_00000000000000000000000_1#32 = .ok (.push 1) := by decide
theorem test_decode_encode :
    decode 0b00000110_000000000000000000000000#32 = .ok .encode := by decide
theorem test_decode_rdband :
    decode 0b00000111_000_011_100000000000000101#32 = .ok (.rdband 3 0x20005) := by decide
theorem test_decode_srst :
    decode 0b00001000_000000000000000000000000#32 = .ok .srst := by decide

-- V-D: the illegal words of the table.
theorem test_decode_illegal :
    [0x00000001#32, 0x01000000, 0x01060000, 0x010D0005, 0x01010010, 0x020D0000, 0x02000001,
      0x03000001, 0x05000002, 0x07200000, 0x08000001, 0x09000000, 0xFFFFFFFF].map decode =
    [.error .operandNotZero, .error .registerNotWritable, .error .registerNotWritable,
      .error .registerNotWritable, .error .cfgBitsNotZero, .error .noSuchRegister,
      .error .immediateNotZero, .error .operandNotZero, .error .pixelBitsNotZero,
      .error .bandBitsNotZero, .error .operandNotZero, .error .reservedOpcode,
      .error .reservedOpcode] := by decide

-- V-D: `0x07140000` is a legal word, `RDBAND 5, 0`.
theorem test_decodeTableWord : decodeTableWord 32 0x07140000 = some (.rdband 5 0) := by decide

/-! ## One step of each command -/

-- V-R3: `NOP` in mode DONE changes nothing.
theorem test_nop_done : send 0x00000000 vpDone = .next vpDone :=
  next_of_after (by decide +kernel)

-- V-R2: `WRREG CFG, 15`.
theorem test_wrreg_cfg : after State.cfg (send 0x0101000F State.reset) = some 15 := by decide +kernel

-- V-R5: `WRREG W, 9` in mode LOADING.
theorem test_wrreg_loading :
    after (fun s => (faultOf s, s.w)) (send 0x01020009 vpLoad) =
      some ((.fault, some .seq, 0x01020009), 2) := by decide +kernel

-- V-R1: `RDREG H` after reset.
theorem test_rdreg_h : after State.resp (send 0x02030000 State.reset) = some [0x78] := by
  decide +kernel

-- V-R4: `RDREG STATUS` in mode DONE, after another response.
theorem test_rdreg_status_done :
    after State.resp (send 0x02000000 { vpDone with resp := [2] }) = some [2, 0x00001F03] := by
  decide +kernel

-- V-C: `OW = 1`, with `OH = 48` (2.5, a tie at an even quotient) and `OH = 80` (1.5, a tie at an odd one),
-- under `half_even` and `half_up`.
theorem test_calc_ties :
    [(48, Params.default), (48, p1000), (80, Params.default), (80, p1000)].map (fun c =>
      after (fun s => (s.w, s.h))
        (send 0x03000000 { State.reset with cfg := 8, ow := 1, oh := c.1, h := 9, params := c.2 })) =
    [some (2, 120), some (3, 120), some (2, 120), some (2, 120)] := by decide +kernel

-- V-C2: `OW = 1001`, `OH = 120` with `WMAX = 1000`.
theorem test_calc_wmax :
    after (fun s => (faultOf s, s.w))
      (send 0x03000000 { State.reset with cfg := 8, ow := 1001, oh := 120, params := p1000 }) =
      some ((.fault, some .wmax, 0x03000000), 0) := by decide +kernel

-- V-B: `W = 2`, `H = 3`.
theorem test_begin :
    send 0x04000000 { vpLoad with mode := .idle } = .next vpLoad :=
  next_of_after (by decide +kernel)

-- V-B: the reset state, `W = 0`.
theorem test_begin_width0 :
    after faultOf (send 0x04000000 State.reset) = some (.fault, some .width0, 0x04000000) := by
  decide +kernel

-- V-P1, V-P3: the fifth pixel of the image goes to cell (2, 0); with `INV = 1` a 0 is stored as 1.
theorem test_push :
    after (fun s => (s.loadcnt, canvasRead s 2 0)) (send 0x05000001 { vpLoad with loadcnt := 4 }) =
      some (5, 1) ∧
    after (fun s => (s.loadcnt, canvasRead s 2 0))
      (send 0x05000000 { vpLoad with loadcnt := 4, cfg := 4 }) = some (5, 1) := by
  decide +kernel

-- V-P2: overrun.
theorem test_push_overrun :
    after (fun s => (faultOf s, s.loadcnt)) (send 0x05000001 { vpLoad with h := 1, loadcnt := 2 }) =
      some ((.fault, some .overrun, 0x05000001), 2) := by decide +kernel

-- V-E6: `ENCODE` sets POS and enters BUSY.
theorem test_encode : send 0x06000000 vpFull = .next (vpBusy 0 0 0 0) :=
  next_of_after (by decide +kernel)

-- V-E5: underrun.
theorem test_encode_underrun :
    after (fun s => (faultOf s, s.loadcnt)) (send 0x06000000 { vpLoad with h := 2, loadcnt := 3 }) =
      some ((.fault, some .underrun, 0x06000000), 3) := by decide +kernel

-- V-X: `RDBAND 0, 3`.
theorem test_rdband : after State.resp (send 0x07000003 vpDone) = some [0x00000060] := by
  decide +kernel

-- V-X: `RDBAND 0, 6` is out of range, `i = 3 W`.
theorem test_rdband_range :
    after (fun s => (faultOf s, s.resp, statusWord s)) (send 0x07000006 vpDone) =
      some ((.fault, some .range, 0x07000006), [], 0x00001F84) := by decide +kernel

-- V-S2: `SRST` in mode DONE keeps the response stream.
theorem test_srst :
    after (fun s => (s.mode, s.h, s.bandw.b0, s.resp)) (send 0x08000000 { vpDone with resp := [2] }) =
      some (.idle, 120, 0, [2]) := by decide +kernel

/-! ## Steps that are not commands -/

-- V-E6, step 4: a new column word and its first byte.
theorem test_engine_step4 :
    after (fun s => (s.col, bandRead s 0 3, s.pos)) (step (vpBusy 0 1 0 0xA00000)) =
      some (0x600000, 0x60, { b := 0, x := 1, k := 1 }) := by decide +kernel

-- V-E6, step 6: the end of band 0.
theorem test_engine_step6 :
    after (fun s => (s.bandrdy, s.bandw.b0, s.pos)) (step (vpBusy 0 1 2 0x600000)) =
      some (0b00001, 2, { b := 1, x := 0, k := 0 }) := by decide +kernel

-- V-E6, step 30: the last byte.
theorem test_engine_step30 :
    after (fun s => (s.mode, s.bandrdy, s.pos)) (step { vpBusy 4 1 2 0 with bandrdy := 0b01111 }) =
      some (.done, 0b11111, { b := 0, x := 0, k := 0 }) := by decide +kernel

-- V-S4: `rst` in mode BUSY.
theorem test_rst_in_busy :
    after (fun s => (s.mode, statusWord s, s.w)) (step { vpBusy 1 0 1 0 with rst := [true] }) =
      some (.idle, 0, 0) := by decide +kernel

-- R36: the output signals in mode BUSY after step 6 of V-E6.
theorem test_signals :
    signals { vpBusy 1 0 0 0x600000 with bandrdy := 0b00001 } =
      { mode := 2, busy := true, done := false, fault := false, bandRdy := 0b00001 } := by decide

-- V-E2: byte 0 and byte 2 of column 0 of band 0 for the four packing orders.
theorem test_packing_orders :
    [0, 1, 2, 3].map (fun c => (encodedByte { vpFull with cfg := c } 0 0,
      encodedByte { vpFull with cfg := c } 0 2)) =
    [(0xA0, 0x00), (0x00, 0x05), (0x00, 0xA0), (0x05, 0x00)] := by decide +kernel

-- The host's placing of a word: it is the very next thing that runs (V-D, `0x0711FFFF`: `E_SEQ`).
theorem test_withFetchWord :
    after faultOf (step (State.reset.withFetchWord 32 0x0711FFFF)) =
      some (.fault, some .seq, 0x0711FFFF) := by decide +kernel

/-! ## Witnesses: states that satisfy the invariant, one per mode, with `W = 1`, `H = 1` -/

def idle1 : State := { State.reset with w := 1, h := 1, ow := 1, oh := 1, params := p1000 }

def load0 : State := { idle1 with mode := .loading }

def load1 : State := { load0 with loadcnt := 1, canvas := [(0, 1)] }

def busy1 : State := { load1 with mode := .busy }

/-- The last engine step of the job is the next one. -/
def busyLast : State :=
  { busy1 with
    pos := { b := 4, x := 0, k := 2 }
    bandrdy := 0x0F
    bandw := { b0 := 1, b1 := 1, b2 := 1, b3 := 1, b4 := 0 }
    band := [(0, 0x80), (1, 0), (2, 0), (262144, 0), (262145, 0), (262146, 0), (524288, 0),
      (524289, 0), (524290, 0), (786432, 0), (786433, 0), (786434, 0), (1048576, 0), (1048577, 0)] }

def done1 : State :=
  { busyLast with
    mode := .done
    pos := Pos.start
    bandrdy := 0x1F
    bandw := { b0 := 1, b1 := 1, b2 := 1, b3 := 1, b4 := 1 }
    band := busyLast.band ++ [(1048578, 0)] }

/-- `RDBAND 0, 3` has faulted in `done1`. -/
def fault1 : State := { done1 with mode := .fault, err := some .range, errcmd := 0x07000003 }

theorem dims_load0 : DimsOk load0 := ⟨by decide, by decide, by decide⟩
theorem dims_load1 : DimsOk load1 := ⟨by decide, by decide, by decide⟩
theorem dims_busy1 : DimsOk busy1 := ⟨by decide, by decide, by decide⟩
theorem dims_busyLast : DimsOk busyLast := ⟨by decide, by decide, by decide⟩
theorem dims_vpFull : DimsOk vpFull := ⟨by decide, by decide, by decide⟩

theorem written1 {s : State} (hc : s.canvas = [(0, 1)]) : CellsWritten s 1 := by
  intro m hm _
  obtain rfl : m = 0 := by omega
  simp [hc, canvasKey, Memory.read?]

theorem done1_encoded (b i : Nat) (hb : b < 5) (hi : i < 3) : HoldsEncoded done1 b i := by
  unfold HoldsEncoded
  interval_cases b <;> interval_cases i <;> decide +kernel

theorem witness_Inv_idle : Inv idle1 := ⟨rfl, rfl, by decide, by decide, ⟨rfl, rfl, rfl, rfl, rfl⟩⟩

theorem witness_Inv_loading : Inv load1 :=
  ⟨rfl, rfl, by decide, by decide,
    ⟨dims_load1, by decide, rfl, rfl, rfl, rfl, written1 rfl⟩⟩

theorem witness_Inv_busy : Inv busyLast := by
  refine ⟨rfl, rfl, by decide, by decide,
    ⟨dims_busyLast, rfl, written1 rfl, by decide, rfl, by decide, ?_, ?_⟩⟩
  · intro _; decide +kernel
  · rintro b i ⟨hi, hp⟩
    have hi : i < 3 := hi
    have hb : b < 5 := by
      have : (busyLast.pos.b : Nat) = 4 := rfl
      omega
    have hp : ¬ (b = 4 ∧ i = 2) := by
      have : (busyLast.pos.b : Nat) = 4 := rfl
      have : posIndex busyLast.pos = 2 := rfl
      omega
    unfold HoldsEncoded
    interval_cases b <;> interval_cases i <;> first | decide +kernel | exact absurd ⟨rfl, rfl⟩ hp

theorem done1_inv : DoneInv done1 :=
  ⟨⟨by decide, by decide, by decide⟩, rfl, written1 rfl, rfl, by decide, rfl, by decide +kernel,
    done1_encoded⟩

theorem witness_Inv_done : Inv done1 := ⟨by decide, by decide, by decide, by decide, done1_inv⟩

theorem witness_Inv_fault : Inv fault1 :=
  ⟨by decide, by decide, by decide, by decide,
    .inr (.inr ⟨⟨by decide, by decide, by decide⟩, rfl, written1 rfl, rfl, by decide, rfl,
      by decide +kernel, done1_encoded⟩)⟩

/-! ## Witnesses of the statements with hypotheses, each clause at a boundary of its range -/

theorem witness_DecodeEncodeRoundTrip :
    (Instr.wrreg .cfg 0x000F).wf = true ∧ (Instr.wrreg .oh 0xFFFF).wf = true ∧
    (Instr.rdband 7 0x3FFFF).wf = true := by decide

theorem witness_EncodeDecodeRoundTrip : decode 0x071FFFFF#32 = .ok (.rdband 7 0x3FFFF) := by decide

theorem witness_ReservedOpcodesIllegal :
    0x09 ≤ ((0x09000000#32 : Word).extractLsb' 24 8).toNat ∧
    0x09 ≤ ((0xFF000001#32 : Word).extractLsb' 24 8).toNat := by decide

theorem witness_DecodeAcceptsExactlyLegal :
    legal 0x0711FFFF#32 = true ∧ legal 0x07200000#32 = false ∧ legal 0xFFFFFFFF#32 = false := by decide

theorem witness_SrstRule :
    (done1.mode ≠ .busy ∧ fault1.mode ≠ .busy) ∧ (busy1.mode = .busy ∧ rstHigh busy1 = false) ∧
    (after State.mode (exec .srst done1) = some .idle ∧
      after State.mode (exec (.rdreg .h) fault1) = some .fault) ∧
    ((0x08000001#32 : Word).extractLsb' 24 8 = 0x08 ∧ (0x08000001#32 : Word).extractLsb' 0 24 ≠ 0) := by
  decide +kernel

theorem witness_RstResetsInAnyMode :
    rstHigh { busy1 with rst := [true], port := [0] } = true ∧
    (rstHigh { done1 with rst := [true], port := [0] } = true ∧
      ({ done1 with rst := [true], port := [0] } : State).mode ≠ .busy) := by decide

theorem witness_StepRunsDecodedWord :
    rstHigh { load0 with port := [0x05000001] } = false ∧ load0.mode ≠ .busy ∧
    decode 0x05000001#32 = .ok (.push 1) := by decide

theorem witness_StepIllegalWord :
    rstHigh { fault1 with port := [0xFFFFFFFF] } = false ∧ fault1.mode ≠ .busy ∧ load0.mode ≠ .busy ∧
    rstHigh { load0 with port := [0xFFFFFFFF] } = false ∧
    decode 0xFFFFFFFF#32 = .error .reservedOpcode := by decide

theorem witness_StepWaitsForAWord :
    rstHigh load0 = false ∧ load0.mode ≠ .busy ∧ load0.port = [] := by decide

-- Both outcomes: the encode goes on, and it ends in mode DONE with a word waiting.
theorem witness_BusyStallsThePort :
    (busy1.mode = .busy ∧ rstHigh busy1 = false ∧ after State.mode (step busy1) = some .busy) ∧
    (rstHigh { busyLast with port := [0x02000000] } = false ∧
      after (fun t => (t.mode, rstHigh t, t.port)) (step { busyLast with port := [0x02000000] }) =
        some (.done, false, [0x02000000])) := by decide +kernel

theorem witness_NopRule :
    done1.mode ≠ .busy ∧ (busy1.mode = .busy ∧ rstHigh busy1 = false) ∧
    ((0x00000001#32 : Word).extractLsb' 24 8 = 0x00 ∧ (0x00000001#32 : Word).extractLsb' 0 24 ≠ 0) := by
  decide

theorem witness_WrregRule :
    (idle1.mode = .idle ∧ (0x000F#16 : Half).extractLsb' 4 12 = 0) ∧
    ((Instr.wrreg .w 0xFFFF).wf = true ∧ load0.mode = .loading ∧ done1.mode = .done) ∧
    fault1.mode = .fault ∧
    ((0x01000000#32 : Word).extractLsb' 24 8 = 0x01 ∧
      ((0x01000000#32 : Word).extractLsb' 16 8).toNat < 1) ∧
    ((0x01060000#32 : Word).extractLsb' 24 8 = 0x01 ∧
      5 < ((0x01060000#32 : Word).extractLsb' 16 8).toNat) ∧
    ((0x01010010#32 : Word).extractLsb' 24 8 = 0x01 ∧
      (0x01010010#32 : Word).extractLsb' 16 8 = 1 ∧ (0x01010010#32 : Word).extractLsb' 4 12 ≠ 0) := by
  decide

theorem witness_RdregRule :
    fault1.mode ≠ .busy ∧
    ((0x020D0000#32 : Word).extractLsb' 24 8 = 0x02 ∧
      12 < ((0x020D0000#32 : Word).extractLsb' 16 8).toNat) ∧
    ((0x02000001#32 : Word).extractLsb' 24 8 = 0x02 ∧
      (0x02000001#32 : Word).extractLsb' 0 16 ≠ 0) := by decide

theorem witness_RegisterReadBits :
    (Inv idle1 ∧ idle1.mode = .idle) ∧ (Inv load1 ∧ load1.mode = .loading) ∧
    (Inv done1 ∧ done1.mode = .done) ∧ (Inv fault1 ∧ fault1.mode = .fault) :=
  ⟨⟨witness_Inv_idle, rfl⟩, ⟨witness_Inv_loading, rfl⟩, ⟨witness_Inv_done, rfl⟩,
    ⟨witness_Inv_fault, rfl⟩⟩

-- `E_DIM` by each register, `t = WMAX + 1`, `t = WMAX`; then the modes that refuse.
theorem witness_CalcRule :
    (({ idle1 with ow := 0 } : State).ow = 0 ∧ ({ idle1 with oh := 0 } : State).oh = 0) ∧
    (let s := { idle1 with cfg := 8, ow := 1001, oh := 120 }
     s.mode = .idle ∧ s.ow ≠ 0 ∧ s.oh ≠ 0 ∧
      wmax s < roundDiv (120 * s.ow.toNat) s.oh.toNat s.params.roundTie) ∧
    (let s := { idle1 with cfg := 8, ow := 1000, oh := 120 }
     s.mode = .idle ∧ s.ow ≠ 0 ∧ s.oh ≠ 0 ∧
      roundDiv (120 * s.ow.toNat) s.oh.toNat s.params.roundTie ≤ wmax s) ∧
    (load0.mode = .loading ∧ done1.mode = .done ∧ fault1.mode = .fault) := by decide +kernel

-- 2.5 is a tie at an even quotient, 1.5 at an odd one; 240 × 1 = 240 is the tie at 0, 240 × 1 < 241 is below it.
theorem witness_CalcLaws :
    idle1.cfg.getLsbD 3 = false ∧ (1 ≤ 48 ∧ 2 * (120 % 48) = 48 ∧ 120 / 48 % 2 = 0) ∧
    (1 ≤ 80 ∧ 2 * (120 % 80) = 80 ∧ 120 / 80 % 2 = 1) ∧
    (1 ≤ 120 ∧ 5760 % 120 = 0) ∧ (1 ≤ 240 ∧ 240 * 1 = 240) ∧ (1 ≤ 241 ∧ 240 * 1 < 241) := by decide

theorem witness_BeginRule :
    (({ idle1 with w := 0 } : State).mode = .idle ∧ ({ idle1 with w := 0 } : State).w = 0) ∧
    (let s := { idle1 with w := 1001 }; s.w ≠ 0 ∧ wmax s < s.w.toNat) ∧
    (let s := { idle1 with w := 1000, h := 0 }; s.w ≠ 0 ∧ s.w.toNat ≤ wmax s ∧ s.h = 0) ∧
    (let s := { idle1 with w := 1000, h := 1 }; s.w ≠ 0 ∧ s.w.toNat ≤ wmax s ∧ s.h ≠ 0) ∧
    (load0.mode = .loading ∧ done1.mode = .done ∧ fault1.mode = .fault) := by decide

-- Overrun; the last row that is stored; the first row that is only counted (V-P4).
theorem witness_PushRule :
    (load1.mode = .loading ∧ DimsOk load1 ∧ load1.loadcnt.toNat = load1.w.toNat * load1.h.toNat) ∧
    (let s := { load0 with h := 122, loadcnt := 119 }
     DimsOk s ∧ s.loadcnt.toNat < s.w.toNat * s.h.toNat ∧ s.loadcnt.toNat / s.w.toNat < 120) ∧
    (let s := { load0 with h := 122, loadcnt := 120 }
     DimsOk s ∧ s.loadcnt.toNat < s.w.toNat * s.h.toNat ∧ 120 ≤ s.loadcnt.toNat / s.w.toNat) ∧
    (idle1.mode = .idle ∧ done1.mode = .done ∧ fault1.mode = .fault) ∧
    ((0x05000002#32 : Word).extractLsb' 24 8 = 0x05 ∧ (0x05000002#32 : Word).extractLsb' 1 23 ≠ 0) :=
  ⟨⟨rfl, dims_load1, rfl⟩, ⟨⟨by decide, by decide, by decide⟩, by decide, by decide⟩,
    ⟨⟨by decide, by decide, by decide⟩, by decide, by decide⟩, ⟨rfl, rfl, rfl⟩, by decide⟩

-- A complete load of one pixel: its own cell, and a cell that stays.
theorem witness_LoadLaw :
    (load0.mode = .loading ∧ DimsOk load0 ∧ load0.loadcnt = 0 ∧
      ([1] : List Bit).length = load0.w.toNat * load0.h.toNat) ∧
    (([1] : List Bit)[0]? = some 1 ∧ 0 / load0.w.toNat < 120) ∧
    (999 < wmax load0 ∧ ∀ n, n < ([1] : List Bit).length → n / load0.w.toNat < 120 →
      ¬ (0 = n / load0.w.toNat ∧ 999 = n % load0.w.toNat)) ∧
    (0 < heff load0 ∧ 0 < load0.w.toNat) :=
  ⟨⟨rfl, dims_load0, rfl, rfl⟩, by decide, by decide, by decide⟩

theorem witness_ColWordRule : 4 < 5 ∧ 1 < vpFull.w.toNat ∧ 23 < 24 := by decide

theorem witness_PackingOrders : 4 < 5 ∧ 1 < vpFull.w.toNat ∧ 23 < 24 := by decide

-- Two states that agree on the cells of band 0 and differ in a cell of band 1.
theorem witness_BandRows :
    let t : State := { vpFull with canvas := vpFull.canvas.write (canvasKey 24 0) 1 }
    (5 < 3 * vpFull.w.toNat ∧ vpFull.cfg = t.cfg ∧ vpFull.h = t.h ∧ vpFull.w = t.w ∧
      ∀ row, 24 * 0 ≤ row → row < 24 * 0 + 24 →
        canvasRead vpFull row (5 / 3) = canvasRead t row (5 / 3)) ∧
    119 < 120 ∧ 24 * 4 ≤ 119 ∧ 119 < 24 * 4 + 24 := by
  refine ⟨⟨by decide, rfl, rfl, rfl, fun row h1 h2 => ?_⟩, by decide⟩
  unfold canvasRead
  interval_cases row <;> rfl

theorem witness_ShortCanvas :
    (1 < 5 ∧ 5 < 3 * vpFull.w.toNat ∧ heff vpFull ≤ 24 * 1) ∧
    (0 < 5 ∧ 1 < vpFull.w.toNat ∧ 3 < 24 ∧ vpFull.h.toNat ≤ 24 * 0 + 3) := by decide

/-- A canvas of one column whose first 24 rows are ink. -/
def inkColumn : State :=
  { load1 with h := 24, canvas := (List.range 24).map fun r => (65536 * r, 1) }

theorem witness_Saturation :
    (0 < 5 ∧ 0 < inkColumn.w.toNat ∧ ∀ r, r < 24 → bandCell inkColumn 0 r 0 = 1) ∧
    (1 < 5 ∧ ∀ r, r < 24 → bandCell inkColumn 1 r 0 = 0) := by decide +kernel

-- The one ink cell of `load1` is at relative row 0.
theorem witness_RowToBitMapping :
    0 < 5 ∧ 0 < load1.w.toNat ∧ 0 < 24 ∧ load1.cfg.getLsbD 0 = false ∧ load1.cfg.getLsbD 1 = false ∧
    ∀ r', r' < 24 → bandCell load1 0 r' 0 = if r' = 0 then 1 else 0 := by decide +kernel

theorem witness_PackingRelations : 4 < 5 ∧ 1 < vpFull.w.toNat ∧ 2 < 3 := by decide

theorem witness_OneCellOneBit :
    (0 < 5 ∧ 1 < vpFull.w.toNat ∧ 2 < 24 ∧ 24 * 0 + 2 < heff vpFull ∧ 5 < 3 * vpFull.w.toNat ∧ 7 < 8) ∧
    (196604 < 3 * 65535 ∧ 7 < 8) := by decide

theorem witness_EncodeStarts :
    (load0.mode = .loading ∧ load0.loadcnt.toNat < load0.w.toNat * load0.h.toNat) ∧
    (load1.mode = .loading ∧ load1.w.toNat * load1.h.toNat ≤ load1.loadcnt.toNat) ∧
    (idle1.mode = .idle ∧ done1.mode = .done ∧ fault1.mode = .fault) := by decide

-- The four cases of the advance of POS.
theorem witness_EngineStepRule :
    (let s := vpBusy 0 0 1 0
     s.mode = .busy ∧ rstHigh s = false ∧ DimsOk s ∧ s.pos.x.toNat < s.w.toNat ∧ s.pos.k.val < 2) ∧
    (let s := vpBusy 0 0 2 0
     DimsOk s ∧ s.pos.k = 2 ∧ s.pos.x.toNat < s.w.toNat - 1) ∧
    (let s := vpBusy 3 1 2 0
     DimsOk s ∧ s.pos.k = 2 ∧ s.pos.x.toNat < s.w.toNat ∧ s.pos.x.toNat = s.w.toNat - 1 ∧
      s.pos.b.val < 4) ∧
    (let s := vpBusy 4 1 2 0
     DimsOk s ∧ s.pos.k = 2 ∧ s.pos.x.toNat < s.w.toNat ∧ s.pos.x.toNat = s.w.toNat - 1 ∧
      s.pos.b = 4) ∧
    (load0.mode ≠ .busy ∧ rstHigh load0 = false) :=
  ⟨⟨rfl, rfl, ⟨by decide, by decide, by decide⟩, by decide, by decide⟩,
    ⟨⟨by decide, by decide, by decide⟩, rfl, by decide⟩,
    ⟨⟨by decide, by decide, by decide⟩, rfl, by decide, rfl, by decide⟩,
    ⟨⟨by decide, by decide, by decide⟩, rfl, by decide, rfl, rfl⟩, by decide⟩

theorem witness_EngineScanOrder :
    busy1.mode = .busy ∧ busy1.pos = { b := 0, x := 0, k := 0 } ∧ DimsOk busy1 ∧ busy1.rst = [] ∧
    14 < 15 * busy1.w.toNat := ⟨rfl, rfl, dims_busy1, rfl, by decide⟩

-- With `W = 1`, index 2 is the last encoded one and index 3 is left alone.
theorem witness_EncodeNetEffect :
    (load1.mode = .loading ∧ DimsOk load1 ∧ load1.loadcnt.toNat = load1.w.toNat * load1.h.toNat ∧
      load1.rst = []) ∧ 2 < 3 * load1.w.toNat ∧ (3 * load1.w.toNat ≤ 3 ∧ 3 < 3 * wmax load1) :=
  ⟨⟨rfl, dims_load1, rfl, rfl⟩, by decide, by decide⟩

-- Two states that differ in the polarity, the resize policy, the band memory and a cell outside the image.
theorem witness_EncodePurity :
    let t : State := { load1 with cfg := 12, band := [(0, 7)], canvas := [(0, 1), (1, 1)] }
    load1.mode = .loading ∧ t.mode = .loading ∧ DimsOk load1 ∧ DimsOk t ∧
    load1.loadcnt.toNat = load1.w.toNat * load1.h.toNat ∧ t.loadcnt.toNat = t.w.toNat * t.h.toNat ∧
    load1.rst = [] ∧ t.rst = [] ∧ load1.w = t.w ∧ load1.h = t.h ∧
    load1.cfg.extractLsb' 0 2 = t.cfg.extractLsb' 0 2 ∧
    (∀ row col, row < heff load1 → col < load1.w.toNat →
      canvasRead load1 row col = canvasRead t row col) ∧ 2 < 3 * load1.w.toNat := by
  refine ⟨rfl, rfl, dims_load1, ⟨by decide, by decide, by decide⟩, rfl, rfl, rfl, rfl, rfl, rfl, by decide,
    fun row col h1 h2 => ?_, by decide⟩
  have h1 : row < 1 := h1
  have h2 : col < 1 := h2
  obtain rfl : row = 0 := by omega
  obtain rfl : col = 0 := by omega
  rfl

-- Row 0 is in the image, row 1 is beyond `Heff`.
theorem witness_JobEncodesThePixels :
    (load0.mode = .loading ∧ DimsOk load0 ∧ load0.loadcnt = 0 ∧ load0.rst = [] ∧
      ([1] : List Bit).length = load0.w.toNat * load0.h.toNat) ∧
    (24 * 0 + 0 < heff load0 ∧ ([1] : List Bit)[(24 * 0 + 0) * load0.w.toNat + 0]? = some 1) ∧
    heff load0 ≤ 24 * 0 + 1 :=
  ⟨⟨rfl, dims_load0, rfl, rfl, rfl⟩, by decide, by decide⟩

-- The last location, the first index and the first band out of range; the modes that refuse.
theorem witness_RdbandRule :
    (done1.mode = .done ∧ (4#3 : BitVec 3).toNat < 5 ∧ (2#18 : BitVec 18).toNat < 3 * done1.w.toNat ∧
      done1.w.toNat ≤ wmax done1) ∧
    (3 * done1.w.toNat ≤ (3#18 : BitVec 18).toNat ∧ 5 ≤ (5#3 : BitVec 3).toNat) ∧
    (idle1.mode = .idle ∧ load0.mode = .loading ∧ fault1.mode = .fault) ∧
    ((0x07200000#32 : Word).extractLsb' 24 8 = 0x07 ∧ (0x07200000#32 : Word).extractLsb' 21 3 ≠ 0) := by
  decide

theorem witness_ReadLaw :
    Inv done1 ∧ done1.mode = .done ∧ (4#3 : BitVec 3).toNat < 5 ∧
    (2#18 : BitVec 18).toNat < 3 * done1.w.toNat ∧
    ((0#3 : BitVec 3).toNat < 5 ∧ 24 * (0#3 : BitVec 3).toNat + 0 < heff done1) :=
  ⟨witness_Inv_done, rfl, by decide, by decide, by decide⟩

theorem witness_PermissionTable :
    ((Instr.wrreg .cfg 15).wf = true ∧ Instr.calcDims.wf = true ∧ (Instr.push 1).wf = true ∧
      (Instr.rdband 7 0).wf = true) ∧
    (idle1.mode = .idle ∧ load0.mode = .loading ∧ done1.mode = .done ∧ fault1.mode = .fault) ∧
    (busy1.mode = .busy ∧ rstHigh busy1 = false) ∧
    decode 0x05000002#32 = .error .pixelBitsNotZero := by decide

theorem witness_FaultPriority :
    let s : State := { idle1 with w := 0, h := 0 }
    s.mode = .idle ∧ s.w = 0 ∧ s.h = 0 := by decide

theorem witness_FaultsArePrecise :
    (after State.mode (executeWord 0x07000003 done1) = some .fault ∧ done1.mode ≠ .fault) ∧
    (after State.mode (executeWord 0xFFFFFFFF fault1) = some .fault ∧ fault1.mode = .fault) := by
  decide +kernel

-- One word for each code, in a state where its cause holds.
theorem witness_FaultCodesAndCauses :
    [(0x09000000#32, idle1), (0x05000000, idle1), (0x04000000, { idle1 with w := 0 }),
      (0x03000000, { idle1 with ow := 1001 }), (0x03000000, { idle1 with oh := 0 }), (0x05000001, load1),
      (0x06000000, load0), (0x07000003, done1)].map
        (fun c => (decide (c.2.mode = .fault), after (fun t => (t.mode, t.err)) (executeWord c.1 c.2))) =
    [(false, some (.fault, some .illcmd)), (false, some (.fault, some .seq)),
      (false, some (.fault, some .width0)), (false, some (.fault, some .wmax)),
      (false, some (.fault, some .dim)), (false, some (.fault, some .overrun)),
      (false, some (.fault, some .underrun)), (false, some (.fault, some .range))] := by decide +kernel

theorem witness_FaultModeAbsorbs :
    fault1.mode = .fault ∧ decode 0x02000000#32 = .ok (.rdreg .status) ∧
    decode 0x08000000#32 = .ok .srst ∧
    (decode 0xFFFFFFFF#32 ≠ .ok .srst ∧ ∀ r, decode 0xFFFFFFFF#32 ≠ .ok (.rdreg r)) := by
  refine ⟨rfl, by decide, by decide, by decide, fun r => ?_⟩
  have : decode 0xFFFFFFFF#32 = .error .reservedOpcode := by decide
  rw [this]; nofun

-- Each transition of MODE happens: a step with `BEGIN`, `ENCODE`, the last engine step, a fault, `SRST`.
theorem witness_ModeTransitions :
    after State.mode (send 0x04000000 idle1) = some .loading ∧
    after State.mode (send 0x06000000 load1) = some .busy ∧
    after State.mode (step busyLast) = some .done ∧
    after State.mode (send 0x04000000 done1) = some .fault ∧
    after State.mode (send 0x08000000 fault1) = some .idle := by decide +kernel

theorem witness_ConfigConstantOutsideIdle :
    after State.epoch (send 0x05000001 load0) = some load0.epoch ∧ load0.mode ≠ .idle := by
  decide +kernel

theorem witness_ResponsesAppendOnly :
    after State.resp (send 0x02030000 done1) = some [1] ∧
    after State.resp (send 0x07000000 done1) = some [0x80] ∧
    after State.resp (step busyLast) = some [] := by decide +kernel

theorem witness_EngineRaisesNoFault :
    Inv busyLast ∧ busyLast.mode = .busy ∧ rstHigh busyLast = false := ⟨witness_Inv_busy, rfl, rfl⟩

theorem witness_RegisterCommandsFrame :
    exec (.wrreg .w 9) idle1 = .next { idle1 with w := 9 } ∧ (∀ p, Instr.wrreg .w 9 ≠ .push p) ∧
    Instr.wrreg .w 9 ≠ .srst :=
  ⟨next_of_after (by decide +kernel), by decide, by decide⟩

theorem witness_PushFrame :
    (exec (.push 1) load0 = .next load1 ∧ load1.mode ≠ .fault) ∧
    after State.mode (exec (.push 1) load1) = some .fault :=
  ⟨⟨next_of_after (by decide +kernel), by decide⟩, by decide +kernel⟩

theorem witness_EngineStepFrame :
    busyLast.mode = .busy ∧ rstHigh busyLast = false ∧ busyLast.pos.x.toNat < busyLast.w.toNat ∧
    after State.mode (step busyLast) = some .done := by decide +kernel

theorem witness_StepKeepsInvariant :
    Inv busyLast ∧ step busyLast = .next done1 := ⟨witness_Inv_busy, next_of_after (by decide +kernel)⟩

theorem witness_InvariantStatesNeverStop : Inv fault1 ∧ Inv busyLast :=
  ⟨witness_Inv_fault, witness_Inv_busy⟩

theorem witness_NoCellReadBeforeWritten :
    (Inv load1 ∧ load1.mode = .loading ∧ load1.loadcnt.toNat = load1.w.toNat * load1.h.toNat) ∧
    (Inv busyLast ∧ busyLast.mode = .busy) ∧ (Inv done1 ∧ done1.mode = .done) ∧
    (0 < heff done1 ∧ 0 < done1.w.toNat) :=
  ⟨⟨witness_Inv_loading, rfl, rfl⟩, ⟨witness_Inv_busy, rfl⟩, ⟨witness_Inv_done, rfl⟩, by decide⟩

theorem witness_NoBandReadBeforeWritten :
    Inv done1 ∧ exec (.rdband 0 0) done1 = .next { done1 with resp := [0x80] } ∧
    ({ done1 with resp := [0x80] } : State).resp ≠ done1.resp :=
  ⟨witness_Inv_done, next_of_after (by decide +kernel), by decide⟩

theorem witness_BandReadyValues :
    Inv idle1 ∧ Inv load1 ∧ Inv busyLast ∧ Inv done1 ∧ Inv fault1 :=
  ⟨witness_Inv_idle, witness_Inv_loading, witness_Inv_busy, witness_Inv_done, witness_Inv_fault⟩

theorem witness_MemoriesStayCanonical :
    busyLast.canvas.wf = true ∧ busyLast.band.wf = true ∧ step busyLast = .next done1 :=
  ⟨by decide, by decide, next_of_after (by decide +kernel)⟩

theorem witness_ParametersNeverChange : step busyLast = .next done1 :=
  next_of_after (by decide +kernel)

end Sys2Proof.Tests
end

section
/-! PROOFS, family 00_scope. The parameters `WMAX` and `ROUND_TIE` through every kind of step (R13, log
entry 4): one lemma per kind of `step_next`, then the obligation. -/

namespace Sys2Proof.Machine

@[simp] theorem advance_params (s : State) : (advance s).params = s.params := by
  obtain ⟨-, -, -, -, -, -, -, -, -, -, -, -, -, -, hparams, -⟩ := advance_frame s
  exact hparams

theorem engineStep_params {s t : State} (h : engineStep s = .next t) : t.params = s.params := by
  obtain ⟨-, rfl⟩ := engineStep_next h
  simp

theorem Effect.params {i : Instr} {s t : State} (h : Effect i s t) : t.params = s.params := by
  cases i with
  | nop => cases h; rfl
  | wrreg r imm16 => obtain ⟨-, rfl⟩ := h; simp
  | rdreg r => obtain ⟨-, rfl⟩ := h; simp
  | calcDims => obtain ⟨-, -, -, -, rfl⟩ := h; rfl
  | beginLoad => obtain ⟨-, -, -, -, rfl⟩ := h; rfl
  | push p => obtain ⟨-, -, -, ⟨-, -, rfl⟩ | ⟨-, rfl⟩⟩ := h <;> simp
  | encode => obtain ⟨-, -, rfl⟩ := h; rfl
  | rdband b idx => obtain ⟨-, -, -, -, rfl⟩ := h; simp
  | srst => obtain ⟨-, rfl⟩ := h; simp

theorem exec_params {i : Instr} {s t : State} (h : exec i s = .next t) : t.params = s.params := by
  obtain rfl | ⟨-, c, rfl⟩ | ⟨-, heffect⟩ := exec_next h
  · rfl
  · simp
  · exact heffect.params

theorem illegalWord_params {cmd : Word} {s t : State} (h : illegalWord cmd s = .next t) :
    t.params = s.params := by
  obtain ⟨-, hnext⟩ | ⟨-, hnext⟩ := illegalWord_next cmd s <;> cases hnext.symm.trans h
  · rfl
  · simp

/-- Settles O58, by the kinds of step: `rst`, an engine step, a wait, a command, an illegal word. -/
theorem parametersNeverChange : Obligations.ParametersNeverChange := by
  intro s t h
  obtain ⟨-, rfl⟩ | ⟨-, -, hengine⟩ | ⟨-, -, -, rfl⟩ |
    ⟨-, -, cmd, rest, -, ⟨i, -, hexec⟩ | ⟨e, -, hillegal⟩⟩ := step_next h
  · simp
  · simpa using engineStep_params hengine
  · simp
  · simpa using exec_params hexec
  · simpa using illegalWord_params hillegal

end Sys2Proof.Machine
end
section
/-! PROOFS, family 10_state: the invariant of reachable states (R39). First the small facts about the
width registers, the ready flags and the job fields; then what each kind of step does to the invariant,
one lemma per operation; then the obligations about `Inv`. -/

namespace Sys2Proof.Machine

/-! ## The width registers and the ready flags -/

theorem BandWidths.get_set (r : BandWidths) (b j : Fin 5) (v : Half) :
    (r.set b v).get j = if j = b then v else r.get j := by
  fin_cases b <;> fin_cases j <;> rfl

theorem BandWidths.get_zero (j : Fin 5) : BandWidths.zero.get j = 0 := by
  fin_cases j <;> rfl

theorem setBandRdy_getLsbD (f : BitVec 5) (b j : Fin 5) :
    (setBandRdy b f).getLsbD j.val = (f.getLsbD j.val || decide (j = b)) := by
  have hj := j.isLt
  rw [setBandRdy, BitVec.getLsbD_or, BitVec.getLsbD_twoPow]
  simp [hj, Fin.ext_iff, eq_comm]

/-- Setting the flag of band `b` when the flags of the bands before it are set (R23, R105). -/
theorem setBandRdy_prefix (b : Fin 5) :
    setBandRdy b (BitVec.ofNat 5 (2 ^ b.val - 1)) = BitVec.ofNat 5 (2 ^ (b.val + 1) - 1) := by
  revert b; decide

/-! ## The fields the job invariants read -/

/-- The state with the fields no job invariant reads put at fixed values. -/
def jobPart (s : State) : State :=
  { s with mode := .idle, err := none, ow := 0, oh := 0, errcmd := 0, resp := [], port := [], rst := [] }

/-- The two states agree in every field a job invariant reads. -/
def SameJob (s t : State) : Prop := jobPart s = jobPart t

theorem idleInv_jobPart (s : State) : IdleInv (jobPart s) ↔ IdleInv s :=
  ⟨fun ⟨a, b, c, d, e⟩ => ⟨a, b, c, d, e⟩, fun ⟨a, b, c, d, e⟩ => ⟨a, b, c, d, e⟩⟩

theorem DimsOk.of_eq {s t : State} (hs : DimsOk s) (hw : t.w = s.w) (hh : t.h = s.h)
    (hp : t.params = s.params) : DimsOk t where
  w_pos := hw ▸ hs.w_pos
  w_le := by rw [hw, wmax, hp]; exact hs.w_le
  h_pos := hh ▸ hs.h_pos

theorem loadingInv_jobPart (s : State) : LoadingInv (jobPart s) ↔ LoadingInv s :=
  ⟨fun ⟨hd, a, b, c, d, e, f⟩ => ⟨hd.of_eq rfl rfl rfl, a, b, c, d, e, f⟩,
    fun ⟨hd, a, b, c, d, e, f⟩ => ⟨hd.of_eq rfl rfl rfl, a, b, c, d, e, f⟩⟩

theorem busyInv_jobPart (s : State) : BusyInv (jobPart s) ↔ BusyInv s :=
  ⟨fun ⟨hd, a, b, c, d, e, f, g⟩ => ⟨hd.of_eq rfl rfl rfl, a, b, c, d, e, f, g⟩,
    fun ⟨hd, a, b, c, d, e, f, g⟩ => ⟨hd.of_eq rfl rfl rfl, a, b, c, d, e, f, g⟩⟩

theorem doneInv_jobPart (s : State) : DoneInv (jobPart s) ↔ DoneInv s :=
  ⟨fun ⟨hd, a, b, c, d, e, f, g⟩ => ⟨hd.of_eq rfl rfl rfl, a, b, c, d, e, f, g⟩,
    fun ⟨hd, a, b, c, d, e, f, g⟩ => ⟨hd.of_eq rfl rfl rfl, a, b, c, d, e, f, g⟩⟩

section
variable {s t : State} (h : SameJob s t)
include h

theorem SameJob.idleInv : IdleInv s ↔ IdleInv t := by
  rw [← idleInv_jobPart s, h, idleInv_jobPart]

theorem SameJob.loadingInv : LoadingInv s ↔ LoadingInv t := by
  rw [← loadingInv_jobPart s, h, loadingInv_jobPart]

theorem SameJob.busyInv : BusyInv s ↔ BusyInv t := by
  rw [← busyInv_jobPart s, h, busyInv_jobPart]

theorem SameJob.doneInv : DoneInv s ↔ DoneInv t := by
  rw [← doneInv_jobPart s, h, doneInv_jobPart]

theorem SameJob.canvas : (jobPart s).canvas = (jobPart t).canvas := congrArg State.canvas h

theorem SameJob.band : (jobPart s).band = (jobPart t).band := congrArg State.band h

end

/-! ## The job invariant in each mode -/

theorem jobInv_idle {s : State} (h : s.mode = .idle) : JobInv s ↔ IdleInv s := by simp [JobInv, h]

theorem jobInv_loading {s : State} (h : s.mode = .loading) : JobInv s ↔ LoadingInv s := by
  simp [JobInv, h]

theorem jobInv_busy {s : State} (h : s.mode = .busy) : JobInv s ↔ BusyInv s := by simp [JobInv, h]

theorem jobInv_done {s : State} (h : s.mode = .done) : JobInv s ↔ DoneInv s := by simp [JobInv, h]

theorem jobInv_fault {s : State} (h : s.mode = .fault) :
    JobInv s ↔ IdleInv s ∨ LoadingInv s ∨ DoneInv s := by simp [JobInv, h]

theorem SameJob.jobInv {s t : State} (h : SameJob s t) (hm : t.mode = s.mode) :
    JobInv s ↔ JobInv t := by
  cases hs : s.mode with
  | idle => rw [jobInv_idle hs, jobInv_idle (hm.trans hs), h.idleInv]
  | loading => rw [jobInv_loading hs, jobInv_loading (hm.trans hs), h.loadingInv]
  | busy => rw [jobInv_busy hs, jobInv_busy (hm.trans hs), h.busyInv]
  | done => rw [jobInv_done hs, jobInv_done (hm.trans hs), h.doneInv]
  | fault =>
    rw [jobInv_fault hs, jobInv_fault (hm.trans hs), h.idleInv, h.loadingInv, h.doneInv]

/-! ## Ways to reach a state that satisfies the invariant -/

/-- `Inv` does not read the response stream, the inputs, `OW` and `OH`. -/
theorem Inv.of_sameJob {s t : State} (hs : Inv s) (h : SameJob s t) (hm : t.mode = s.mode)
    (he : t.err = s.err) (hc : t.errcmd = s.errcmd) : Inv t where
  canvas_wf := (congrArg Memory.wf h.canvas).symm.trans hs.canvas_wf
  band_wf := (congrArg Memory.wf h.band).symm.trans hs.band_wf
  err_iff := by rw [he, hm]; exact hs.err_iff
  errcmd_zero := by rw [he, hc]; exact hs.errcmd_zero
  job := (h.jobInv hm).1 hs.job

/-- Fault entry keeps the job as it was (R39 item 7, R128). -/
theorem Inv.raiseFault {s : State} (hs : Inv s) (hf : faultable s.mode) (c : ErrCode) (cmd : Word) :
    Inv (raiseFault c cmd s) where
  canvas_wf := hs.canvas_wf
  band_wf := hs.band_wf
  err_iff := by simp
  errcmd_zero := by simp
  job := by
    have hsame : SameJob s (Machine.raiseFault c cmd s) := rfl
    rw [jobInv_fault (raiseFault_mode c cmd s), ← hsame.idleInv, ← hsame.loadingInv, ← hsame.doneInv]
    rcases hf with hm | hm | hm
    · exact .inl ((jobInv_idle hm).1 hs.job)
    · exact .inr (.inl ((jobInv_loading hm).1 hs.job))
    · exact .inr (.inr ((jobInv_done hm).1 hs.job))

/-- A step outside mode FAULT that raises no fault leaves only the memories and the job to check. -/
theorem Inv.of_noFault {s t : State} (hs : Inv s) (hsm : s.mode ≠ .fault) (htm : t.mode ≠ .fault)
    (he : t.err = s.err) (hc : t.errcmd = s.errcmd) (hcanvas : t.canvas.wf = true)
    (hband : t.band.wf = true) (hjob : JobInv t) : Inv t where
  canvas_wf := hcanvas
  band_wf := hband
  err_iff := by
    have hnone : s.err = none := not_not.1 fun h => hsm (hs.err_iff.1 h)
    simp [he, hnone, htm]
  errcmd_zero := by rw [he, hc]; exact hs.errcmd_zero
  job := hjob

theorem inv_resetState (s : State) : Inv (resetState s) where
  canvas_wf := rfl
  band_wf := rfl
  err_iff := by simp
  errcmd_zero _ := rfl
  job := (jobInv_idle rfl).2 ⟨rfl, rfl, rfl, rfl, rfl⟩

theorem inv_rstStep (s : State) : Inv (rstStep s) :=
  (inv_resetState s).of_sameJob rfl rfl rfl rfl

/-! ## Loading (R93, R94) -/

theorem pixelCount_lt (s : State) : pixelCount s < 2 ^ 32 := by
  have := Nat.mul_lt_mul'' s.w.isLt s.h.isLt
  simpa [pixelCount] using this

theorem loadcnt_succ_toNat {s : State} (h : s.loadcnt.toNat < pixelCount s) :
    (s.loadcnt + 1).toNat = s.loadcnt.toNat + 1 := by
  have := pixelCount_lt s
  have hone : (1 : BitVec 32).toNat = 1 := rfl
  rw [BitVec.toNat_add_of_lt, hone]; omega

theorem one_le_toNat {v : Half} (h : v ≠ 0) : 1 ≤ v.toNat := by bv_omega

/-- `BEGIN` opens a load with no pixel in it (R93). -/
theorem IdleInv.beginLoad {s : State} (hs : IdleInv s) (hw : s.w ≠ 0) (hle : s.w.toNat ≤ wmax s)
    (hh : s.h ≠ 0) : LoadingInv { s with loadcnt := 0, mode := .loading } where
  dims :=
    { w_pos := one_le_toNat hw
      w_le := hle
      h_pos := one_le_toNat hh }
  loadcnt_le := Nat.zero_le _
  bandrdy_zero := hs.bandrdy_zero
  bandw_zero := hs.bandw_zero
  pos_start := hs.pos_start
  col_zero := hs.col_zero
  written := fun _ hm => absurd hm (Nat.not_lt_zero _)

theorem Memory.isSome_read?_write {n : Nat} {m : Memory n} {j : Nat} (k : Nat) (v : BitVec n)
    (h : (m.read? j).isSome) : ((m.write k v).read? j).isSome := by
  rw [Memory.read?_write]; split
  · rfl
  · exact h

/-- One more pixel: its cell need only be written when its row is below 120 (R95, R96). -/
theorem CellsWritten.succ {s : State} {n : Nat} (h : CellsWritten s n)
    (hnew : n / s.w.toNat < 120 →
      (s.canvas.read? (canvasKey (n / s.w.toNat) (n % s.w.toNat))).isSome) :
    CellsWritten s (n + 1) := by
  intro m hm hrow
  obtain hlt | rfl := Nat.lt_succ_iff_lt_or_eq.1 hm
  · exact h m hlt hrow
  · exact hnew hrow

theorem CellsWritten.canvasWrite {s : State} {n : Nat} (h : CellsWritten s n) (row col : Nat)
    (v : Bit) : CellsWritten (canvasWrite row col v s) n := fun m hm hrow =>
  Memory.isSome_read?_write _ _ (h m hm hrow)

theorem LoadingInv.canvasWrite {s : State} (hs : LoadingInv s) (row col : Nat) (v : Bit) :
    LoadingInv (canvasWrite row col v s) :=
  { hs with
    dims := hs.dims.of_eq rfl rfl rfl
    written := hs.written.canvasWrite row col v }

/-- Counting a pixel whose cell has been written if its row is below 120. -/
theorem LoadingInv.countPixel {s : State} (hs : LoadingInv s) (hne : s.loadcnt.toNat ≠ pixelCount s)
    (hnew : loadRow s < 120 → (s.canvas.read? (canvasKey (loadRow s) (loadCol s))).isSome) :
    LoadingInv (countPixel s) := by
  have hlt : s.loadcnt.toNat < pixelCount s := Nat.lt_of_le_of_ne hs.loadcnt_le hne
  have hcount : (Machine.countPixel s).loadcnt.toNat = s.loadcnt.toNat + 1 := loadcnt_succ_toNat hlt
  exact
    { hs with
      dims := hs.dims.of_eq rfl rfl rfl
      loadcnt_le := hcount ▸ hlt
      written := hcount ▸ hs.written.succ hnew }

/-- `ENCODE` starts the engine before the first byte (R99). -/
theorem LoadingInv.encode {s : State} (hs : LoadingInv s) (hfull : pixelCount s ≤ s.loadcnt.toNat) :
    BusyInv { s with pos := Pos.start, mode := .busy } where
  dims := hs.dims.of_eq rfl rfl rfl
  loaded := Nat.le_antisymm hs.loadcnt_le hfull
  written := hs.written
  x_lt := hs.dims.w_pos
  bandrdy_eq := hs.bandrdy_zero
  bandw_eq := fun j => (congrArg (·.get j) hs.bandw_zero).trans (BandWidths.get_zero j)
  col_eq := fun hk => absurd rfl hk
  encoded := fun b i ⟨_, h⟩ => by simp [Pos.start, posIndex] at h

/-- A command's effect keeps the invariant (R39). -/
theorem Effect.inv {i : Instr} {s t : State} (h : Effect i s t) (hs : Inv s) : Inv t := by
  cases i with
  | nop => cases h; exact hs
  | wrreg r imm16 =>
    obtain ⟨hm, rfl⟩ := h
    have hj := (jobInv_idle hm).1 hs.job
    refine hs.of_noFault (by simp [hm]) (by simp [hm]) (by simp) (by simp) (by simpa using hs.canvas_wf)
      (by simpa using hs.band_wf) ((jobInv_idle (by simpa using hm)).2 ?_)
    exact ⟨by simpa using hj.loadcnt_zero, by simpa using hj.bandrdy_zero, by simpa using hj.bandw_zero,
      by simpa using hj.pos_start, by simpa using hj.col_zero⟩
  | rdreg r => obtain ⟨-, rfl⟩ := h; exact hs.of_sameJob rfl rfl rfl rfl
  | calcDims =>
    obtain ⟨hm, -, -, -, rfl⟩ := h
    have hj := (jobInv_idle hm).1 hs.job
    exact hs.of_noFault (by simp [hm]) (by simp [hm]) rfl rfl hs.canvas_wf hs.band_wf
      (Iff.mpr (jobInv_idle hm) { hj with })
  | beginLoad =>
    obtain ⟨hm, hw, hle, hh, rfl⟩ := h
    exact hs.of_noFault (by simp [hm]) (by simp) rfl rfl hs.canvas_wf hs.band_wf
      ((jobInv_loading rfl).2 (((jobInv_idle hm).1 hs.job).beginLoad hw hle hh))
  | push p =>
    obtain ⟨hm, hne, -, hcell⟩ := h
    have hj := (jobInv_loading hm).1 hs.job
    obtain ⟨-, -, rfl⟩ | ⟨hrow, rfl⟩ := hcell
    · refine hs.of_noFault (by simp [hm]) (by simp [hm]) rfl rfl
        (Memory.wf_write _ _ _ hs.canvas_wf) hs.band_wf (Iff.mpr (jobInv_loading hm) ?_)
      refine (hj.canvasWrite _ _ _).countPixel hne fun _ => ?_
      exact Option.isSome_of_eq_some (Memory.read?_write_same _ _ _)
    · exact hs.of_noFault (by simp [hm]) (by simp [hm]) rfl rfl hs.canvas_wf hs.band_wf
        (Iff.mpr (jobInv_loading hm) (hj.countPixel hne fun hlt => absurd hlt (Nat.not_lt.2 hrow)))
  | encode =>
    obtain ⟨hm, hfull, rfl⟩ := h
    exact hs.of_noFault (by simp [hm]) (by simp) rfl rfl hs.canvas_wf hs.band_wf
      ((jobInv_busy rfl).2 (((jobInv_loading hm).1 hs.job).encode hfull))
  | rdband b idx => obtain ⟨-, -, -, -, rfl⟩ := h; exact hs.of_sameJob rfl rfl rfl rfl
  | srst => obtain ⟨-, rfl⟩ := h; exact inv_resetState s

theorem exec_inv {i : Instr} {s t : State} (h : exec i s = .next t) (hs : Inv s) : Inv t := by
  obtain rfl | ⟨hf, c, rfl⟩ | ⟨-, heffect⟩ := exec_next h
  · exact hs
  · exact hs.raiseFault hf c _
  · exact heffect.inv hs

theorem illegalWord_inv {cmd : Word} {s t : State} (h : illegalWord cmd s = .next t) (hs : Inv s) :
    Inv t := by
  obtain ⟨-, hnext⟩ | ⟨hf, hnext⟩ := illegalWord_next cmd s <;> cases hnext.symm.trans h
  · exact hs
  · exact hs.raiseFault hf _ _

/-! ## The engine step (R105) -/

/-- What holds after the engine has written the byte at `POS` and before `POS` advances. -/
structure ByteWritten (s : State) : Prop where
  dims : DimsOk s
  loaded : s.loadcnt.toNat = pixelCount s
  written : CellsWritten s s.loadcnt.toNat
  x_lt : s.pos.x.toNat < s.w.toNat
  bandrdy_eq : s.bandrdy = BitVec.ofNat 5 (2 ^ s.pos.b.val - 1)
  bandw_eq : ∀ j : Fin 5, s.bandw.get j = if j.val < s.pos.b.val then s.w else 0
  col_eq : s.col = colWord s s.pos.b.val s.pos.x.toNat
  encoded : ∀ b i, precedesPos s b i ∨ b = s.pos.b.val ∧ i = posIndex s.pos → HoldsEncoded s b i

theorem BusyInv.nextCol_eq {s : State} (hs : BusyInv s) :
    nextCol s = colWord s s.pos.b.val s.pos.x.toNat := by
  by_cases hk : s.pos.k = 0
  · exact if_pos hk
  · exact (if_neg hk).trans (hs.col_eq hk)

/-- The byte the engine writes is `Encode[b][3 x + k]` (R102). -/
theorem BusyInv.byte_eq {s : State} (hs : BusyInv s) :
    byteOf (byteOrd s) (nextCol s) s.pos.k = encodedByte s s.pos.b.val (posIndex s.pos) := by
  have hk := s.pos.k.isLt
  have hdiv : posIndex s.pos / 3 = s.pos.x.toNat := by unfold posIndex; omega
  have hmod : posIndex s.pos % 3 = s.pos.k.val := by unfold posIndex; omega
  simp only [encodedByte, hdiv, hmod, hs.nextCol_eq]

theorem posIndex_lt {s : State} (h : s.pos.x.toNat < s.w.toNat) :
    posIndex s.pos < 3 * s.w.toNat := by
  have hk := s.pos.k.isLt
  unfold posIndex; omega

theorem index_lt {s : State} {i : Nat} (h : i < 3 * s.w.toNat) : i < 262144 := by
  have hw := s.w.isLt; omega

theorem encodedByte_engineWrite (s : State) (b i : Nat) :
    encodedByte (engineWrite s) b i = encodedByte s b i := encodedByte_eq_of rfl rfl rfl rfl b i

theorem BusyInv.byteWritten {s : State} (hs : BusyInv s) : ByteWritten (engineWrite s) where
  dims := hs.dims.of_eq rfl rfl rfl
  loaded := hs.loaded
  written := hs.written
  x_lt := hs.x_lt
  bandrdy_eq := hs.bandrdy_eq
  bandw_eq := hs.bandw_eq
  col_eq := hs.nextCol_eq.trans (colWord_eq_of rfl rfl rfl rfl _ _)
  encoded := by
    intro b i h
    unfold HoldsEncoded
    rw [engineWrite_band, Memory.read?_write, hs.byte_eq, encodedByte_engineWrite]
    split
    · next hkey =>
      have hi : i < 3 * s.w.toNat := by
        obtain ⟨hi, -⟩ | ⟨-, rfl⟩ := h
        · exact hi
        · exact posIndex_lt hs.x_lt
      obtain ⟨rfl, rfl⟩ := (bandKey_inj (index_lt hi) (index_lt (posIndex_lt hs.x_lt))).1 hkey
      rfl
    · next hkey =>
      obtain h | ⟨rfl, rfl⟩ := h
      · exact hs.encoded b i h
      · exact absurd rfl hkey

/-- The engine goes on within the column: `COL` stays the word of the column (R21, R105). -/
theorem ByteWritten.nextByte {s : State} (hs : ByteWritten s) (hk : s.pos.k.val + 1 < 3) :
    BusyInv { s with pos := { s.pos with k := ⟨s.pos.k.val + 1, hk⟩ } } where
  dims := hs.dims.of_eq rfl rfl rfl
  loaded := hs.loaded
  written := hs.written
  x_lt := hs.x_lt
  bandrdy_eq := hs.bandrdy_eq
  bandw_eq := hs.bandw_eq
  col_eq _ := hs.col_eq.trans (colWord_eq_of rfl rfl rfl rfl _ _)
  encoded b i h := hs.encoded b i (by simp only [precedesPos, posIndex] at h ⊢; omega)

/-- The engine goes on with the next column of the band. -/
theorem ByteWritten.nextColumn {s : State} (hs : ByteWritten s) (hk : s.pos.k = 2)
    (hx : s.pos.x.toNat + 1 < s.w.toNat) :
    BusyInv { s with pos := { s.pos with x := s.pos.x + 1, k := 0 } } := by
  have hk2 : s.pos.k.val = 2 := congrArg Fin.val hk
  have hx' : (s.pos.x + 1).toNat = s.pos.x.toNat + 1 := by
    have hw := s.w.isLt
    have hone : (1 : Half).toNat = 1 := rfl
    rw [BitVec.toNat_add_of_lt, hone]; omega
  exact
    { dims := hs.dims.of_eq rfl rfl rfl
      loaded := hs.loaded
      written := hs.written
      x_lt := hx' ▸ hx
      bandrdy_eq := hs.bandrdy_eq
      bandw_eq := hs.bandw_eq
      col_eq := fun hk => absurd rfl hk
      encoded := fun b i h => hs.encoded b i (by
        simp only [precedesPos, posIndex, hx', hk2, Fin.val_zero] at h ⊢; omega) }

/-- `BANDW` after band `b` ends: the bands up to `b` hold `W` (R20, R105). -/
theorem ByteWritten.get_set_bandw {s : State} (hs : ByteWritten s) (j : Fin 5) :
    (s.bandw.set s.pos.b s.w).get j = if j.val < s.pos.b.val + 1 then s.w else 0 := by
  rw [BandWidths.get_set, hs.bandw_eq]
  by_cases hj : j = s.pos.b
  · simp [hj]
  · have hne : j.val ≠ s.pos.b.val := fun h => hj (Fin.ext h)
    rw [if_neg hj]
    exact if_congr (by omega) rfl rfl

/-- At the last byte of a band every location of the bands up to it has been written. -/
theorem ByteWritten.encoded_band {s : State} (hs : ByteWritten s) (hk : s.pos.k = 2)
    (hx : s.w.toNat ≤ s.pos.x.toNat + 1) {b i : Nat} (hi : i < 3 * s.w.toNat)
    (hb : b < s.pos.b.val + 1) : HoldsEncoded s b i := by
  apply hs.encoded b i
  have hk2 : s.pos.k.val = 2 := congrArg Fin.val hk
  simp only [precedesPos, posIndex]; omega

/-- The engine goes on with the first byte of the next band. -/
theorem ByteWritten.nextBand {s : State} (hs : ByteWritten s) (hk : s.pos.k = 2)
    (hx : s.w.toNat ≤ s.pos.x.toNat + 1) (hb : s.pos.b.val + 1 < 5) :
    BusyInv { s with
      bandw := s.bandw.set s.pos.b s.w, bandrdy := setBandRdy s.pos.b s.bandrdy,
      pos := { b := ⟨s.pos.b.val + 1, hb⟩, x := 0, k := 0 } } where
  dims := hs.dims.of_eq rfl rfl rfl
  loaded := hs.loaded
  written := hs.written
  x_lt := hs.dims.w_pos
  bandrdy_eq := hs.bandrdy_eq ▸ setBandRdy_prefix s.pos.b
  bandw_eq := hs.get_set_bandw
  col_eq hk := absurd rfl hk
  encoded b i h := by
    obtain ⟨hi, h⟩ := h
    exact hs.encoded_band hk hx hi (by simp [posIndex] at h; omega)

/-- The engine stops after the last byte of band 4 (R99, R105). -/
theorem ByteWritten.lastByte {s : State} (hs : ByteWritten s) (hk : s.pos.k = 2)
    (hx : s.w.toNat ≤ s.pos.x.toNat + 1) (hb : s.pos.b = 4) :
    DoneInv { s with
      bandw := s.bandw.set s.pos.b s.w, bandrdy := setBandRdy s.pos.b s.bandrdy,
      pos := Pos.start, mode := .done } where
  dims := hs.dims.of_eq rfl rfl rfl
  loaded := hs.loaded
  written := hs.written
  bandrdy_all := by
    show setBandRdy s.pos.b s.bandrdy = 0x1F
    rw [hs.bandrdy_eq, setBandRdy_prefix, hb]; rfl
  bandw_all j := (hs.get_set_bandw j).trans (if_pos (by rw [hb]; exact j.isLt))
  pos_start := rfl
  col_last := by
    have hlast : s.pos.x.toNat = s.w.toNat - 1 := by have := hs.x_lt; omega
    have hcol := hs.col_eq
    rw [hb, hlast] at hcol
    exact hcol.trans (colWord_eq_of rfl rfl rfl rfl _ _)
  encoded b i hb5 hi := hs.encoded_band hk hx hi (by rw [hb]; exact hb5)

/-- The advance of `POS` after the byte at it is written: still BUSY, or DONE after the last byte. -/
theorem ByteWritten.advance {s : State} (hs : ByteWritten s) (hm : s.mode = .busy) :
    (advance s).mode ≠ .fault ∧ JobInv (advance s) := by
  obtain ⟨hk, h⟩ | ⟨hk, hx, h⟩ | ⟨hk, hx, hb, h⟩ | ⟨hk, hx, hb, h⟩ := advance_cases s <;> rw [h]
  · exact ⟨by simp [hm], Iff.mpr (jobInv_busy hm) (hs.nextByte hk)⟩
  · exact ⟨by simp [hm], Iff.mpr (jobInv_busy hm) (hs.nextColumn hk hx)⟩
  · exact ⟨by simp [hm], Iff.mpr (jobInv_busy hm) (hs.nextBand hk hx hb)⟩
  · exact ⟨by simp, Iff.mpr (jobInv_done rfl) (hs.lastByte hk hx hb)⟩

theorem engineStep_inv {s t : State} (h : engineStep s = .next t) (hs : Inv s) (hm : s.mode = .busy) :
    Inv t := by
  obtain ⟨-, rfl⟩ := engineStep_next h
  obtain ⟨htm, hjob⟩ := ((jobInv_busy hm).1 hs.job).byteWritten.advance hm
  obtain ⟨herr, -, -, -, -, -, herrcmd, -, -, hcanvas, hband, -⟩ := advance_frame (engineWrite s)
  exact hs.of_noFault (by simp [hm]) htm herr herrcmd (hcanvas ▸ hs.canvas_wf)
    (hband ▸ Memory.wf_write _ _ _ hs.band_wf) hjob

/-! ## The obligations about the invariant -/

/-- Settles O51. -/
theorem resetSatisfiesInvariant : Obligations.ResetSatisfiesInvariant where
  canvas_wf := rfl
  band_wf := rfl
  err_iff := by decide
  errcmd_zero _ := rfl
  job := (jobInv_idle rfl).2 ⟨rfl, rfl, rfl, rfl, rfl⟩

/-- Settles O52, by the kinds of step: `rst`, an engine step, a wait, a command, an illegal word. -/
theorem stepKeepsInvariant : Obligations.StepKeepsInvariant := by
  intro s t hs h
  have htick : Inv (tickRst s) := hs.of_sameJob rfl rfl rfl rfl
  obtain ⟨-, rfl⟩ | ⟨-, hm, hengine⟩ | ⟨-, -, -, rfl⟩ |
    ⟨-, -, cmd, rest, -, hword⟩ := step_next h
  · exact inv_rstStep _
  · exact engineStep_inv hengine htick hm
  · exact htick
  · have haccept : Inv { tickRst s with port := rest } := hs.of_sameJob rfl rfl rfl rfl
    obtain ⟨i, -, hexec⟩ | ⟨e, -, hillegal⟩ := hword
    · exact exec_inv hexec haccept
    · exact illegalWord_inv hillegal haccept

/-- Settles O55: in mode DONE every location below `3 × W` holds its encoded byte. -/
theorem noBandReadBeforeWritten : Obligations.NoBandReadBeforeWritten := by
  intro s t b i hs h hresp
  obtain rfl | ⟨-, c, rfl⟩ | ⟨-, hm, hb, hi, -, -⟩ := exec_next h
  · exact absurd rfl hresp
  · exact absurd rfl hresp
  · exact ⟨hm, Option.isSome_of_eq_some (((jobInv_done hm).1 hs.job).encoded _ _ hb hi)⟩

theorem BusyInv.bandrdy_toNat {s : State} (hs : BusyInv s) :
    s.bandrdy.toNat = 2 ^ s.pos.b.val - 1 := by
  have hval : ∀ b : Fin 5, (BitVec.ofNat 5 (2 ^ b.val - 1)).toNat = 2 ^ b.val - 1 := by decide
  rw [hs.bandrdy_eq, hval]

/-- Outside mode BUSY no band is ready or all five are, as the mode says (R39). -/
theorem Inv.bandrdy_cases {s : State} (hs : Inv s) :
    (s.bandrdy = 0 ∧ (s.mode = .idle ∨ s.mode = .loading ∨ s.mode = .fault)) ∨
    (s.bandrdy = 0x1F ∧ (s.mode = .done ∨ s.mode = .fault)) ∨
    (s.mode = .busy ∧ BusyInv s) := by
  have hjob := hs.job
  cases hm : s.mode with
  | idle => exact .inl ⟨((jobInv_idle hm).1 hjob).bandrdy_zero, .inl rfl⟩
  | loading => exact .inl ⟨((jobInv_loading hm).1 hjob).bandrdy_zero, .inr (.inl rfl)⟩
  | busy => exact .inr (.inr ⟨rfl, (jobInv_busy hm).1 hjob⟩)
  | done => exact .inr (.inl ⟨((jobInv_done hm).1 hjob).bandrdy_all, .inl rfl⟩)
  | fault =>
    obtain h | h | h := (jobInv_fault hm).1 hjob
    · exact .inl ⟨h.bandrdy_zero, .inr (.inr rfl)⟩
    · exact .inl ⟨h.bandrdy_zero, .inr (.inr rfl)⟩
    · exact .inr (.inl ⟨h.bandrdy_all, .inr rfl⟩)

/-- Settles O56, by the three cases of `Inv.bandrdy_cases`. -/
theorem bandReadyValues : Obligations.BandReadyValues := by
  intro s hs
  obtain ⟨hz, hm⟩ | ⟨hall, hm⟩ | ⟨hm, hbusy⟩ := hs.bandrdy_cases
  · refine ⟨⟨0, by decide, by rw [hz]; rfl⟩, fun _ => hz, fun hd => ?_, fun _ => .inl hz⟩
    simp [hd] at hm
  · refine ⟨⟨5, by decide, by rw [hall]; rfl⟩, fun hd => ?_, fun _ => hall, fun _ => .inr hall⟩
    obtain hd | hd := hd <;> simp [hd] at hm
  · refine ⟨⟨s.pos.b.val, s.pos.b.isLt.le, hbusy.bandrdy_toNat⟩, ?_, ?_, ?_⟩ <;> simp [hm]

end Sys2Proof.Machine
end
section
/-! PROOFS, family 10_state: words and their commands (R70, R78). The number of a word put together of
fields, and that a word which decodes is the word of its command. -/

namespace Sys2Proof

/-! ## The number of an encoded word (R78) -/

theorem toNat_append_eq_add {m n : Nat} (a : BitVec m) (b : BitVec n) :
    (a ++ b).toNat = a.toNat * 2 ^ n + b.toNat := by
  rw [BitVec.toNat_append, ← Nat.shiftLeft_add_eq_or_of_lt b.isLt, Nat.shiftLeft_eq]

theorem encode_toNat (i : Instr) :
    (encode i).toNat = i.opcode.toNat * 16777216 + i.operand.toNat :=
  toNat_append_eq_add i.opcode i.operand

theorem encode_wrreg_toNat (r : WritableReg) (v : Half) :
    (encode (.wrreg r v)).toNat = 0x01000000 + r.num.toNat * 65536 + v.toNat := by
  rw [encode_toNat, Instr.operand, toNat_append_eq_add]
  simp [Instr.opcode, Nat.add_assoc]

theorem encode_rdreg_toNat (r : RegName) :
    (encode (.rdreg r)).toNat = 0x02000000 + r.num.toNat * 65536 := by
  rw [encode_toNat, Instr.operand, toNat_append_eq_add]
  simp [Instr.opcode]

theorem encode_push_toNat (p : Bit) : (encode (.push p)).toNat = 0x05000000 + p.toNat := by
  rw [encode_toNat, Instr.operand, toNat_append_eq_add]
  simp [Instr.opcode]

theorem encode_rdband_toNat (b : BitVec 3) (i : BitVec 18) :
    (encode (.rdband b i)).toNat = 0x07000000 + b.toNat * 262144 + i.toNat := by
  rw [encode_toNat, Instr.operand, toNat_append_eq_add, toNat_append_eq_add]
  simp [Instr.opcode, Nat.add_assoc]

/-! ## A word that decodes is the word of its command -/

theorem opField_append_operandField (cmd : Word) : opField cmd ++ operandField cmd = cmd := by
  unfold opField operandField
  rw [BitVec.extractLsb'_append_extractLsb'_eq_extractLsb' (by rfl), BitVec.extractLsb'_eq_self]

theorem writableReg?_eq_some {n : BitVec 8} {r : WritableReg} (h : writableReg? n = some r) :
    r.num = n := by
  have hall : ∀ n : BitVec 8, ∀ r ∈ writableReg? n, r.num = n := by decide
  exact hall n r h

theorem regName?_eq_some {n : BitVec 8} {r : RegName} (h : regName? n = some r) : r.num = n := by
  have hall : ∀ n : BitVec 8, ∀ r ∈ regName? n, r.num = n := by decide
  exact hall n r h

theorem decodeN_ok {cmd : Word} {i j : Instr} (h : decodeN cmd i = .ok j) :
    operandField cmd = 0 ∧ j = i := by
  unfold decodeN at h
  split at h
  · next hz => cases h; exact ⟨hz, rfl⟩
  · cases h

theorem decodeWrreg_ok {cmd : Word} {i : Instr} (h : decodeWrreg cmd = .ok i) :
    ∃ r, r.num = regField cmd ∧ i = .wrreg r (immField cmd) ∧ i.wf = true := by
  unfold decodeWrreg at h
  split at h
  · cases h
  · next r hr =>
    split at h
    · next hw => cases h; exact ⟨r, writableReg?_eq_some hr, rfl, hw⟩
    · cases h

theorem decodeRdreg_ok {cmd : Word} {i : Instr} (h : decodeRdreg cmd = .ok i) :
    ∃ r, r.num = regField cmd ∧ immField cmd = 0 ∧ i = .rdreg r := by
  unfold decodeRdreg at h
  split at h
  · cases h
  · next r hr =>
    split at h
    · next hz => cases h; exact ⟨r, regName?_eq_some hr, hz, rfl⟩
    · cases h

theorem decodePush_ok {cmd : Word} {i : Instr} (h : decodePush cmd = .ok i) :
    cmd.extractLsb' 1 23 = 0 ∧ i = .push (pixelField cmd) := by
  unfold decodePush at h
  split at h
  · next hz => cases h; exact ⟨hz, rfl⟩
  · cases h

theorem decodeRdband_ok {cmd : Word} {i : Instr} (h : decodeRdband cmd = .ok i) :
    cmd.extractLsb' 21 3 = 0 ∧ i = .rdband (bandField cmd) (indexField cmd) := by
  unfold decodeRdband at h
  split at h
  · next hz => cases h; exact ⟨hz, rfl⟩
  · cases h

theorem operandField_eq_reg_imm (cmd : Word) : operandField cmd = regField cmd ++ immField cmd := by
  unfold regField immField operandField
  rw [BitVec.extractLsb'_append_extractLsb'_eq_extractLsb' (by rfl)]

theorem operandField_eq_pixel (cmd : Word) :
    operandField cmd = cmd.extractLsb' 1 23 ++ pixelField cmd := by
  unfold pixelField operandField
  rw [BitVec.extractLsb'_append_extractLsb'_eq_extractLsb' (by rfl)]

theorem operandField_eq_band_index (cmd : Word) :
    operandField cmd = (cmd.extractLsb' 21 3 ++ bandField cmd : BitVec 6) ++ indexField cmd := by
  unfold bandField indexField operandField
  rw [BitVec.extractLsb'_append_extractLsb'_eq_extractLsb' (by rfl),
    BitVec.extractLsb'_append_extractLsb'_eq_extractLsb' (by rfl)]

/-- The opcode and the operand field of a word are those of the command it decodes to (R70). -/
theorem fields_of_decode {cmd : Word} {i : Instr} (h : decode cmd = .ok i) :
    opField cmd = i.opcode ∧ operandField cmd = i.operand := by
  unfold decode at h
  split_ifs at h with hop hop hop hop hop hop hop hop hop
  · obtain ⟨hz, rfl⟩ := decodeN_ok h; exact ⟨hop, hz⟩
  · obtain ⟨r, hr, rfl, -⟩ := decodeWrreg_ok h
    exact ⟨hop, by rw [operandField_eq_reg_imm, ← hr]; rfl⟩
  · obtain ⟨r, hr, hz, rfl⟩ := decodeRdreg_ok h
    exact ⟨hop, by rw [operandField_eq_reg_imm, ← hr, hz]; rfl⟩
  · obtain ⟨hz, rfl⟩ := decodeN_ok h; exact ⟨hop, hz⟩
  · obtain ⟨hz, rfl⟩ := decodeN_ok h; exact ⟨hop, hz⟩
  · obtain ⟨hz, rfl⟩ := decodePush_ok h
    exact ⟨hop, by rw [operandField_eq_pixel, hz]; rfl⟩
  · obtain ⟨hz, rfl⟩ := decodeN_ok h; exact ⟨hop, hz⟩
  · obtain ⟨hz, rfl⟩ := decodeRdband_ok h
    exact ⟨hop, by rw [operandField_eq_band_index, hz]; rfl⟩
  · obtain ⟨hz, rfl⟩ := decodeN_ok h; exact ⟨hop, hz⟩

/-- A legal word is the word of exactly the command it decodes to (R70; log entry 9). -/
theorem encode_of_decode {cmd : Word} {i : Instr} (h : decode cmd = .ok i) : encode i = cmd := by
  obtain ⟨hop, hoperand⟩ := fields_of_decode h
  rw [encode, ← hop, ← hoperand, opField_append_operandField]

/-- Settles O1: closed words by evaluation, the words with operands by their fields. -/
theorem decodeSpecWords : Obligations.DecodeSpecWords := by
  refine ⟨by decide, by decide, by decide, fun v => ?_, ?_, by decide, encode_push_toNat,
    encode_rdband_toNat⟩
  · exact ⟨encode_wrreg_toNat .cfg v, encode_wrreg_toNat .w v, encode_wrreg_toNat .h v,
      encode_wrreg_toNat .ow v, encode_wrreg_toNat .oh v⟩
  · refine ⟨by decide, by decide, by decide, by decide, by decide, by decide, by decide, by decide,
      fun b => ?_⟩
    have hnum : ∀ b : Fin 5, (RegName.bandw b).num.toNat = 8 + b.val := by decide
    rw [encode_rdreg_toNat, hnum]

end Sys2Proof
end

section
/-! PROOFS, family 10_state: what a step does to the mode, the configuration and the response stream. -/

namespace Sys2Proof.Machine

/-! ## Reset values, signals, flags -/

/-- Settles O6. -/
theorem resetRegisterValues : Obligations.ResetRegisterValues := by
  refine ⟨fun r => ?_, rfl, rfl, rfl, rfl, rfl, rfl⟩
  cases r with
  | bandw b => simp [readReg, State.reset, BandWidths.get_zero]
  | _ => decide

/-- Settles O60. -/
theorem signalsFollowState : Obligations.SignalsFollowState := by
  intro s
  simp [signals]

/-- Settles O33. -/
theorem bandFlagsIndependent : Obligations.BandFlagsIndependent :=
  ⟨BandWidths.get_set, setBandRdy_getLsbD⟩

/-! ## The mode (R24) -/

/-- Everything a command's effect can do to the mode. -/
theorem Effect.mode {i : Instr} {s t : State} (h : Effect i s t) :
    t.mode = s.mode ∨ (i = .beginLoad ∧ s.mode = .idle ∧ t.mode = .loading) ∨
    (i = .encode ∧ s.mode = .loading ∧ t.mode = .busy) ∨ (i = .srst ∧ t.mode = .idle) := by
  cases i with
  | nop => cases h; exact .inl rfl
  | wrreg r imm16 => obtain ⟨-, rfl⟩ := h; simp
  | rdreg r => obtain ⟨-, rfl⟩ := h; simp
  | calcDims => obtain ⟨-, -, -, -, rfl⟩ := h; exact .inl rfl
  | beginLoad => obtain ⟨hm, -, -, -, rfl⟩ := h; exact .inr (.inl ⟨rfl, hm, rfl⟩)
  | push p => obtain ⟨-, -, -, ⟨-, -, rfl⟩ | ⟨-, rfl⟩⟩ := h <;> simp
  | encode => obtain ⟨hm, -, rfl⟩ := h; exact .inr (.inr (.inl ⟨rfl, hm, rfl⟩))
  | rdband b idx => obtain ⟨-, -, -, -, rfl⟩ := h; simp
  | srst => obtain ⟨-, rfl⟩ := h; exact .inr (.inr (.inr ⟨rfl, rfl⟩))

theorem engineStep_mode {s t : State} (h : engineStep s = .next t) :
    t.mode = s.mode ∨ t.mode = .done := by
  obtain ⟨-, rfl⟩ := engineStep_next h
  obtain ⟨_, h⟩ | ⟨_, _, h⟩ | ⟨_, _, _, h⟩ | ⟨_, _, _, h⟩ := advance_cases (engineWrite s) <;> simp [h]

theorem illegalWord_mode {cmd : Word} {s t : State} (h : illegalWord cmd s = .next t) :
    t.mode = s.mode ∨ (faultable s.mode ∧ t.mode = .fault) := by
  obtain ⟨-, hnext⟩ | ⟨hf, hnext⟩ := illegalWord_next cmd s <;> cases hnext.symm.trans h
  · exact .inl rfl
  · exact .inr ⟨hf, rfl⟩

theorem exec_mode {i : Instr} {s t : State} (h : exec i s = .next t) :
    t.mode = s.mode ∨ (faultable s.mode ∧ t.mode = .fault) ∨
    (i = .beginLoad ∧ s.mode = .idle ∧ t.mode = .loading) ∨
    (i = .encode ∧ s.mode = .loading ∧ t.mode = .busy) ∨ (i = .srst ∧ t.mode = .idle) := by
  obtain rfl | ⟨hf, c, rfl⟩ | ⟨-, heffect⟩ := exec_next h
  · exact .inl rfl
  · exact .inr (.inl ⟨hf, rfl⟩)
  · exact heffect.mode.imp id .inr

/-- Settles O44: by the kinds of step; the word that causes a transition is the one its command
encodes to. -/
theorem modeTransitions : Obligations.ModeTransitions := by
  refine ⟨by decide, fun s t h => ?_⟩
  obtain ⟨hr, rfl⟩ | ⟨-, hm, hengine⟩ | ⟨-, -, -, rfl⟩ |
    ⟨-, hm, cmd, rest, hport, ⟨i, hd, hexec⟩ | ⟨e, -, hillegal⟩⟩ := step_next h
  · exact .inr (.inr (.inr (.inr (.inr ⟨rfl, .inl hr⟩))))
  · exact (engineStep_mode hengine).imp id fun hdone => .inr (.inr (.inl ⟨hm, hdone⟩))
  · exact .inl rfl
  · have hhead : s.port.head? = some (encode i) := by rw [hport, encode_of_decode hd]; rfl
    obtain hsame | ⟨hf, ht⟩ | ⟨rfl, hs, ht⟩ | ⟨rfl, hs, ht⟩ | ⟨rfl, ht⟩ := exec_mode hexec
    · exact .inl hsame
    · exact .inr (.inr (.inr (.inr (.inl ⟨hf, ht⟩))))
    · exact .inr (.inl ⟨hs, ht, hhead⟩)
    · exact .inr (.inr (.inl ⟨hs, ht, hhead⟩))
    · exact .inr (.inr (.inr (.inr (.inr ⟨ht, .inr ⟨hm, hhead⟩⟩))))
  · exact (illegalWord_mode hillegal).imp id fun hf => .inr (.inr (.inr (.inl hf)))

/-! ## The configuration registers (R39 item 8) -/

/-- `CFG`, `W`, `H`, `OW` and `OH` are the same in both states. -/
def SameConfig (s t : State) : Prop :=
  t.cfg = s.cfg ∧ t.w = s.w ∧ t.h = s.h ∧ t.ow = s.ow ∧ t.oh = s.oh

theorem SameConfig.refl (s : State) : SameConfig s s := ⟨rfl, rfl, rfl, rfl, rfl⟩

/-- Only in mode IDLE, or by `SRST`, does a command's effect change the configuration. -/
theorem Effect.sameConfig {i : Instr} {s t : State} (h : Effect i s t) (hm : s.mode ≠ .idle)
    (he : t.epoch = s.epoch) : SameConfig s t := by
  cases i with
  | nop => cases h; exact .refl _
  | wrreg r imm16 => exact absurd h.1 hm
  | rdreg r => obtain ⟨-, rfl⟩ := h; exact .refl _
  | calcDims => exact absurd h.1 hm
  | beginLoad => exact absurd h.1 hm
  | push p => obtain ⟨-, -, -, ⟨-, -, rfl⟩ | ⟨-, rfl⟩⟩ := h <;> exact .refl _
  | encode => obtain ⟨-, -, rfl⟩ := h; exact .refl _
  | rdband b idx => obtain ⟨-, -, -, -, rfl⟩ := h; exact .refl _
  | srst => obtain ⟨-, rfl⟩ := h; simp at he

theorem exec_sameConfig {i : Instr} {s t : State} (h : exec i s = .next t) (hm : s.mode ≠ .idle)
    (he : t.epoch = s.epoch) : SameConfig s t := by
  obtain rfl | ⟨-, c, rfl⟩ | ⟨-, heffect⟩ := exec_next h
  · exact .refl _
  · exact .refl _
  · exact heffect.sameConfig hm he

theorem illegalWord_sameConfig {cmd : Word} {s t : State} (h : illegalWord cmd s = .next t) :
    SameConfig s t := by
  obtain ⟨-, hnext⟩ | ⟨-, hnext⟩ := illegalWord_next cmd s <;> cases hnext.symm.trans h <;>
    exact .refl _

theorem engineStep_sameConfig {s t : State} (h : engineStep s = .next t) : SameConfig s t := by
  obtain ⟨-, rfl⟩ := engineStep_next h
  obtain ⟨-, hcfg, hw, hh, how, hoh, -⟩ := advance_frame (engineWrite s)
  exact ⟨hcfg, hw, hh, how, hoh⟩

/-- Settles O45, by the kinds of step. -/
theorem configConstantOutsideIdle : Obligations.ConfigConstantOutsideIdle := by
  intro s t h hm he
  obtain ⟨-, rfl⟩ | ⟨-, -, hengine⟩ | ⟨-, -, -, rfl⟩ |
    ⟨-, -, cmd, rest, -, ⟨i, -, hexec⟩ | ⟨e, -, hillegal⟩⟩ := step_next h
  · simp at he
  · simpa [SameConfig] using engineStep_sameConfig hengine
  · simp
  · simpa [SameConfig] using exec_sameConfig hexec hm he
  · simpa [SameConfig] using illegalWord_sameConfig hillegal

/-! ## The response stream (R35) -/

/-- Only `RDREG` and `RDBAND` append to the response stream, one word each. -/
theorem Effect.resp {i : Instr} {s t : State} (h : Effect i s t) :
    t.resp = s.resp ∨ (∃ r, i = .rdreg r ∧ t.resp = s.resp ++ [readReg r s]) ∨
    (∃ b idx, i = .rdband b idx ∧ s.mode = .done ∧ t.mode = .done ∧
      t.resp = s.resp ++ [(bandRead s b.toNat idx.toNat).setWidth 32]) := by
  cases i with
  | nop => cases h; exact .inl rfl
  | wrreg r imm16 => obtain ⟨-, rfl⟩ := h; simp
  | rdreg r => obtain ⟨-, rfl⟩ := h; exact .inr (.inl ⟨r, rfl, rfl⟩)
  | calcDims => obtain ⟨-, -, -, -, rfl⟩ := h; exact .inl rfl
  | beginLoad => obtain ⟨-, -, -, -, rfl⟩ := h; exact .inl rfl
  | push p => obtain ⟨-, -, -, ⟨-, -, rfl⟩ | ⟨-, rfl⟩⟩ := h <;> simp
  | encode => obtain ⟨-, -, rfl⟩ := h; exact .inl rfl
  | rdband b idx =>
    obtain ⟨hm, -, -, -, rfl⟩ := h
    exact .inr (.inr ⟨b, idx, rfl, hm, hm, rfl⟩)
  | srst => obtain ⟨-, rfl⟩ := h; simp

theorem illegalWord_resp {cmd : Word} {s t : State} (h : illegalWord cmd s = .next t) :
    t.resp = s.resp := by
  obtain ⟨-, hnext⟩ | ⟨-, hnext⟩ := illegalWord_next cmd s <;> cases hnext.symm.trans h <;> rfl

theorem engineStep_resp {s t : State} (h : engineStep s = .next t) : t.resp = s.resp := by
  obtain ⟨-, rfl⟩ := engineStep_next h
  obtain ⟨-, -, -, -, -, -, -, -, -, -, -, hresp, -⟩ := advance_frame (engineWrite s)
  exact hresp

/-- Settles O46, by the kinds of step. A register does not depend on the port or on `rst`. -/
theorem responsesAppendOnly : Obligations.ResponsesAppendOnly := by
  intro s t h
  obtain ⟨-, rfl⟩ | ⟨-, -, hengine⟩ | ⟨-, -, -, rfl⟩ |
    ⟨hr, hm, cmd, rest, hport, ⟨i, hd, hexec⟩ | ⟨e, -, hillegal⟩⟩ := step_next h
  · exact .inl rfl
  · exact .inl (by simpa using engineStep_resp hengine)
  · exact .inl rfl
  · obtain rfl | ⟨-, c, rfl⟩ | ⟨-, heffect⟩ := exec_next hexec
    · exact .inl rfl
    · exact .inl rfl
    obtain hsame | ⟨r, rfl, hresp⟩ | ⟨b, idx, rfl, hdone, ht, hresp⟩ := heffect.resp
    · exact .inl hsame
    · have hread : readReg r { tickRst s with port := rest } = readReg r s := by cases r <;> rfl
      exact .inr ⟨cmd, rest, hport, hm, hr, .inl ⟨r, hd, hread ▸ hresp⟩⟩
    · exact .inr ⟨cmd, rest, hport, hm, hr, .inr ⟨b, idx, hd, hdone, ht, hresp⟩⟩
  · exact .inl (by simpa using illegalWord_resp hillegal)

end Sys2Proof.Machine
end

section
/-! PROOFS, family 20_memory: the canonical form of both memories (R41, R42, log entry 6). The two
writes keep it; each kind of step leaves the memories alone, makes one such write, or empties them. -/

namespace Sys2Proof.Machine

/-- Both memories are in canonical form (log entry 6). -/
structure MemCanonical (s : State) : Prop where
  canvas_wf : s.canvas.wf = true
  band_wf : s.band.wf = true

/-- Only the memories matter to the canonical form. -/
theorem MemCanonical.of_eq {s t : State} (hs : MemCanonical s) (hcanvas : t.canvas = s.canvas)
    (hband : t.band = s.band) : MemCanonical t :=
  ⟨hcanvas ▸ hs.canvas_wf, hband ▸ hs.band_wf⟩

theorem MemCanonical.canvasWrite {s : State} (hs : MemCanonical s) (row col : Nat) (v : Bit) :
    MemCanonical (canvasWrite row col v s) :=
  ⟨Memory.wf_write _ _ _ hs.canvas_wf, hs.band_wf⟩

theorem MemCanonical.bandWrite {s : State} (hs : MemCanonical s) (b i : Nat) (v : Byte) :
    MemCanonical (bandWrite b i v s) :=
  ⟨hs.canvas_wf, Memory.wf_write _ _ _ hs.band_wf⟩

theorem memCanonical_resetState (s : State) : MemCanonical (resetState s) := ⟨rfl, rfl⟩

theorem memCanonical_rstStep (s : State) : MemCanonical (rstStep s) := ⟨rfl, rfl⟩

theorem MemCanonical.engineWrite {s : State} (hs : MemCanonical s) :
    MemCanonical (engineWrite s) := by
  have hcol : MemCanonical { s with col := nextCol s } := hs.of_eq rfl rfl
  exact hcol.bandWrite _ _ _

theorem MemCanonical.advance {s : State} (hs : MemCanonical s) : MemCanonical (advance s) := by
  obtain ⟨-, -, -, -, -, -, -, -, -, hcanvas, hband, -⟩ := advance_frame s
  exact hs.of_eq hcanvas hband

theorem engineStep_memCanonical {s t : State} (h : engineStep s = .next t) (hs : MemCanonical s) :
    MemCanonical t := by
  obtain ⟨-, rfl⟩ := engineStep_next h
  exact hs.engineWrite.advance

/-- Of the commands only `PUSH` writes a memory, and only `SRST` empties them. -/
theorem Effect.memCanonical {i : Instr} {s t : State} (h : Effect i s t) (hs : MemCanonical s) :
    MemCanonical t := by
  cases i with
  | nop => cases h; exact hs
  | wrreg r imm16 =>
    obtain ⟨-, rfl⟩ := h
    exact hs.of_eq (writeReg_canvas r imm16 s) (writeReg_band r imm16 s)
  | rdreg r => obtain ⟨-, rfl⟩ := h; exact hs.of_eq rfl rfl
  | calcDims => obtain ⟨-, -, -, -, rfl⟩ := h; exact hs.of_eq rfl rfl
  | beginLoad => obtain ⟨-, -, -, -, rfl⟩ := h; exact hs.of_eq rfl rfl
  | push p =>
    obtain ⟨-, -, -, ⟨-, -, rfl⟩ | ⟨-, rfl⟩⟩ := h
    · exact (hs.canvasWrite _ _ _).of_eq rfl rfl
    · exact hs.of_eq rfl rfl
  | encode => obtain ⟨-, -, rfl⟩ := h; exact hs.of_eq rfl rfl
  | rdband b idx => obtain ⟨-, -, -, -, rfl⟩ := h; exact hs.of_eq rfl rfl
  | srst => obtain ⟨-, rfl⟩ := h; exact memCanonical_resetState s

theorem exec_memCanonical {i : Instr} {s t : State} (h : exec i s = .next t) (hs : MemCanonical s) :
    MemCanonical t := by
  obtain rfl | ⟨-, c, rfl⟩ | ⟨-, heffect⟩ := exec_next h
  · exact hs
  · exact hs.of_eq rfl rfl
  · exact heffect.memCanonical hs

theorem illegalWord_memCanonical {cmd : Word} {s t : State} (h : illegalWord cmd s = .next t)
    (hs : MemCanonical s) : MemCanonical t := by
  obtain ⟨-, hnext⟩ | ⟨-, hnext⟩ := illegalWord_next cmd s <;> cases hnext.symm.trans h
  · exact hs
  · exact hs.of_eq rfl rfl

theorem step_memCanonical {s t : State} (h : step s = .next t) (hs : MemCanonical s) :
    MemCanonical t := by
  obtain ⟨-, rfl⟩ | ⟨-, -, hengine⟩ | ⟨-, -, -, rfl⟩ |
    ⟨-, -, cmd, rest, -, ⟨i, -, hexec⟩ | ⟨e, -, hillegal⟩⟩ := step_next h
  · exact memCanonical_rstStep _
  · exact engineStep_memCanonical hengine (hs.of_eq rfl rfl)
  · exact hs.of_eq rfl rfl
  · exact exec_memCanonical hexec (hs.of_eq rfl rfl)
  · exact illegalWord_memCanonical hillegal (hs.of_eq rfl rfl)

/-- Settles O57, by the kinds of step: `rst`, an engine step, a wait, a command, an illegal word. -/
theorem memoriesStayCanonical : Obligations.MemoriesStayCanonical := by
  intro s t hcanvas hband h
  obtain ⟨hcanvas', hband'⟩ := step_memCanonical h ⟨hcanvas, hband⟩
  exact ⟨hcanvas', hband'⟩

end Sys2Proof.Machine
end

section
/-! PROOFS, family 30_encoding: decoding the word of a command (R65 to R71), the words the decoder
accepts (R73, R74). -/

namespace Sys2Proof

/-! ## The fields of the word of a command (R66 to R69) -/

@[simp] theorem regField_encode_wrreg (r : WritableReg) (v : Half) :
    regField (encode (.wrreg r v)) = r.num := by
  rw [regField, extractLsb'_encode _ (by decide)]
  exact BitVec.extractLsb'_append_eq_left

@[simp] theorem immField_encode_wrreg (r : WritableReg) (v : Half) :
    immField (encode (.wrreg r v)) = v := by
  rw [immField, extractLsb'_encode _ (by decide)]
  exact BitVec.extractLsb'_append_eq_right

@[simp] theorem regField_encode_rdreg (r : RegName) : regField (encode (.rdreg r)) = r.num := by
  rw [regField, extractLsb'_encode _ (by decide)]
  exact BitVec.extractLsb'_append_eq_left

@[simp] theorem immField_encode_rdreg (r : RegName) : immField (encode (.rdreg r)) = 0 := by
  rw [immField, extractLsb'_encode _ (by decide)]
  exact BitVec.extractLsb'_append_eq_right

@[simp] theorem pixelField_encode_push (p : Bit) : pixelField (encode (.push p)) = p := by
  rw [pixelField, extractLsb'_encode _ (by decide)]
  exact BitVec.extractLsb'_append_eq_right

theorem highBits_encode_push (p : Bit) : (encode (.push p)).extractLsb' 1 23 = 0 := by
  rw [extractLsb'_encode _ (by decide)]
  exact BitVec.extractLsb'_append_eq_left

@[simp] theorem indexField_encode_rdband (b : BitVec 3) (i : BitVec 18) :
    indexField (encode (.rdband b i)) = i := by
  rw [indexField, extractLsb'_encode _ (by decide)]
  exact BitVec.extractLsb'_append_eq_right

@[simp] theorem bandField_encode_rdband (b : BitVec 3) (i : BitVec 18) :
    bandField (encode (.rdband b i)) = b := by
  rw [bandField, extractLsb'_encode _ (by decide), Instr.operand,
    BitVec.extractLsb'_append_eq_of_le (by decide)]
  exact BitVec.extractLsb'_append_eq_right

theorem highBits_encode_rdband (b : BitVec 3) (i : BitVec 18) :
    (encode (.rdband b i)).extractLsb' 21 3 = 0 := by
  rw [extractLsb'_encode _ (by decide), Instr.operand,
    BitVec.extractLsb'_append_eq_of_le (by decide)]
  exact BitVec.extractLsb'_append_eq_left

/-! ## Decoding the word of a command -/

theorem decodeN_encode {i : Instr} (h : i.operand = 0) : decodeN (encode i) i = .ok i := by
  rw [decodeN, operandField_encode, if_pos h]

theorem decodeWrreg_encode {r : WritableReg} {v : Half} (h : (Instr.wrreg r v).wf = true) :
    decodeWrreg (encode (.wrreg r v)) = .ok (.wrreg r v) := by
  simp [decodeWrreg, writableReg?_num, h]

theorem decodeRdreg_encode (r : RegName) : decodeRdreg (encode (.rdreg r)) = .ok (.rdreg r) := by
  simp [decodeRdreg, regName?_num]

theorem decodePush_encode (p : Bit) : decodePush (encode (.push p)) = .ok (.push p) := by
  rw [decodePush, highBits_encode_push, pixelField_encode_push, if_pos rfl]

theorem decodeRdband_encode (b : BitVec 3) (i : BitVec 18) :
    decodeRdband (encode (.rdband b i)) = .ok (.rdband b i) := by
  rw [decodeRdband, highBits_encode_rdband, bandField_encode_rdband, indexField_encode_rdband,
    if_pos rfl]

theorem decode_encode {i : Instr} (h : i.wf = true) : decode (encode i) = .ok i := by
  unfold decode
  rw [opField_encode]
  cases i with
  | nop => exact decodeN_encode (i := .nop) rfl
  | wrreg r v => exact decodeWrreg_encode h
  | rdreg r => exact decodeRdreg_encode r
  | calcDims => exact decodeN_encode (i := .calcDims) rfl
  | beginLoad => exact decodeN_encode (i := .beginLoad) rfl
  | push p => exact decodePush_encode p
  | encode => exact decodeN_encode (i := .encode) rfl
  | rdband b i => exact decodeRdband_encode b i
  | srst => exact decodeN_encode (i := .srst) rfl

/-- Settles O2, by cases on the command: its opcode selects the decoder of its format, and each
operand is the field the decoder reads. -/
theorem decodeEncodeRoundTrip : Obligations.DecodeEncodeRoundTrip := fun _ => decode_encode

/-- A word decodes to a well-formed instruction only (R70, R73). -/
theorem wf_of_decode {cmd : Word} {i : Instr} (h : decode cmd = .ok i) : i.wf = true := by
  unfold decode at h
  split_ifs at h
  · obtain ⟨-, rfl⟩ := decodeN_ok h; rfl
  · obtain ⟨-, -, -, hwf⟩ := decodeWrreg_ok h; exact hwf
  · obtain ⟨-, -, -, rfl⟩ := decodeRdreg_ok h; rfl
  · obtain ⟨-, rfl⟩ := decodeN_ok h; rfl
  · obtain ⟨-, rfl⟩ := decodeN_ok h; rfl
  · obtain ⟨-, rfl⟩ := decodePush_ok h; rfl
  · obtain ⟨-, rfl⟩ := decodeN_ok h; rfl
  · obtain ⟨-, rfl⟩ := decodeRdband_ok h; rfl
  · obtain ⟨-, rfl⟩ := decodeN_ok h; rfl

/-- Settles O3: the fields of a word that decodes are those of its command. -/
theorem encodeDecodeRoundTrip : Obligations.EncodeDecodeRoundTrip :=
  fun _ _ h => ⟨wf_of_decode h, encode_of_decode h⟩

/-! ## The words the decoder accepts (R73, R74) -/

theorem writableReg?_isSome (n : BitVec 8) :
    (writableReg? n).isSome = true ↔ 1 ≤ n.toNat ∧ n.toNat ≤ 5 := by
  revert n; decide

theorem regName?_isSome (n : BitVec 8) : (regName? n).isSome = true ↔ n.toNat ≤ 12 := by
  revert n; decide

theorem wf_wrreg_iff (r : WritableReg) (v : Half) :
    (Instr.wrreg r v).wf = true ↔ r.num.toNat ≠ 1 ∨ v.extractLsb' 4 12 = 0 := by
  cases r <;> simp [Instr.wf, WritableReg.num]

/-- A check that answers an instruction or an error accepts exactly when it holds. -/
theorem exists_ite_ok_iff {p : Prop} [Decidable p] (i : Instr) (e : IllegalWord) :
    (∃ j, (if p then Except.ok i else .error e) = .ok j) ↔ p := by
  split <;> simp [*]

theorem decodeN_accepts (cmd : Word) (j : Instr) :
    (∃ i, decodeN cmd j = .ok i) ↔ operandField cmd = 0 :=
  exists_ite_ok_iff _ _

theorem decodeWrreg_accepts (cmd : Word) :
    (∃ i, decodeWrreg cmd = .ok i) ↔
      (1 ≤ (regField cmd).toNat ∧ (regField cmd).toNat ≤ 5) ∧
      ((regField cmd).toNat ≠ 1 ∨ cmd.extractLsb' 4 12 = 0) := by
  have himm : (immField cmd).extractLsb' 4 12 = cmd.extractLsb' 4 12 :=
    BitVec.extractLsb'_extractLsb'_of_le (by decide)
  rw [← writableReg?_isSome, ← himm]
  unfold decodeWrreg
  cases hr : writableReg? (regField cmd) with
  | none => simp
  | some r =>
    rw [← writableReg?_eq_some hr, ← wf_wrreg_iff]
    simpa using exists_ite_ok_iff (p := _ = true) _ _

theorem decodeRdreg_accepts (cmd : Word) :
    (∃ i, decodeRdreg cmd = .ok i) ↔ (regField cmd).toNat ≤ 12 ∧ immField cmd = 0 := by
  rw [← regName?_isSome]
  unfold decodeRdreg
  cases regName? (regField cmd) with
  | none => simp
  | some r => simpa using exists_ite_ok_iff (p := immField cmd = 0) _ _

theorem decodePush_accepts (cmd : Word) :
    (∃ i, decodePush cmd = .ok i) ↔ cmd.extractLsb' 1 23 = 0 :=
  exists_ite_ok_iff _ _

theorem decodeRdband_accepts (cmd : Word) :
    (∃ i, decodeRdband cmd = .ok i) ↔ cmd.extractLsb' 21 3 = 0 :=
  exists_ite_ok_iff _ _

/-- `Legal` as a case distinction on the opcode field itself. -/
theorem legal_iff (cmd : Word) : legal cmd = true ↔
    ((opField cmd = 0 ∨ opField cmd = 3 ∨ opField cmd = 4 ∨ opField cmd = 6 ∨ opField cmd = 8) ∧
      operandField cmd = 0) ∨
    (opField cmd = 1 ∧ (1 ≤ (regField cmd).toNat ∧ (regField cmd).toNat ≤ 5) ∧
      ((regField cmd).toNat ≠ 1 ∨ cmd.extractLsb' 4 12 = 0)) ∨
    (opField cmd = 2 ∧ (regField cmd).toNat ≤ 12 ∧ immField cmd = 0) ∨
    (opField cmd = 5 ∧ cmd.extractLsb' 1 23 = 0) ∨
    (opField cmd = 7 ∧ cmd.extractLsb' 21 3 = 0) := by
  have hop : ∀ k : BitVec 8, opField cmd = k ↔ (opField cmd).toNat = k.toNat :=
    fun _ => BitVec.toNat_inj.symm
  simp [legal, hop, immField, or_assoc, and_assoc]

theorem decode_ok_iff_legal (cmd : Word) : (∃ i, decode cmd = .ok i) ↔ legal cmd = true := by
  rw [legal_iff]
  unfold decode
  split_ifs with hop hop hop hop hop hop hop hop hop
  · simp [hop, decodeN_accepts]
  · simp [hop, decodeWrreg_accepts]
  · simp [hop, decodeRdreg_accepts]
  · simp [hop, decodeN_accepts]
  · simp [hop, decodeN_accepts]
  · simp [hop, decodePush_accepts]
  · simp [hop, decodeN_accepts]
  · simp [hop, decodeRdband_accepts]
  · simp [hop, decodeN_accepts]
  · simp only [*, false_and, or_self, exists_false]

/-- Settles O5: none of the nine opcodes is the word's. -/
theorem reservedOpcodesIllegal : Obligations.ReservedOpcodesIllegal := by
  intro cmd h
  have hne : ∀ op : BitVec 8, op.toNat < 9 → opField cmd ≠ op := by
    rintro _ hlt rfl
    exact absurd h (Nat.not_le.2 hlt)
  simp [decode, hne]

end Sys2Proof

namespace Sys2Proof.Machine

theorem executeWord_of_illegal {cmd : Word} (h : legal cmd = false) (s : State) :
    executeWord cmd s = illegalWord cmd s := by
  unfold executeWord
  cases hd : decode cmd with
  | ok i => exact absurd ((decode_ok_iff_legal cmd).1 ⟨i, hd⟩) (by simp [h])
  | error e => rfl

theorem illegalWord_of_faultable {s : State} (h : faultable s.mode) (cmd : Word) :
    illegalWord cmd s = .next (raiseFault .illcmd cmd s) := by
  obtain ⟨hnot, -⟩ | ⟨-, hnext⟩ := illegalWord_next cmd s
  · exact absurd h hnot
  · exact hnext

theorem illegalWord_of_fault {s : State} (h : s.mode = .fault) (cmd : Word) :
    illegalWord cmd s = .next s := by
  obtain ⟨-, hnext⟩ | ⟨hfaultable, -⟩ := illegalWord_next cmd s
  · exact hnext
  · simp [faultable, h] at hfaultable

theorem raisesIllcmd_of_illegal {cmd : Word} (h : legal cmd = false) : RaisesIllcmd cmd := by
  intro s
  rw [executeWord_of_illegal h]
  exact ⟨fun hm => illegalWord_of_faultable hm cmd, fun hm => illegalWord_of_fault hm cmd⟩

/-- Settles O4: the decoder of each opcode accepts what `Legal` asks of that opcode; a word it refuses
goes to step 1 of R124. -/
theorem decodeAcceptsExactlyLegal : Obligations.DecodeAcceptsExactlyLegal :=
  ⟨decode_ok_iff_legal, fun _ => raisesIllcmd_of_illegal⟩

end Sys2Proof.Machine
end

section
/-! PROOFS, family 30_encoding: the bit of a band location a cell goes to (R80). -/

namespace Sys2Proof.Machine

/-- Location `3 x + j` of a band is byte `j` of the triple of column `x` (R102). -/
theorem encodedByte_triple (s : State) (b x : Nat) {j : Nat} (hj : j < 3) :
    encodedByte s b (3 * x + j) = byteOf (byteOrd s) (colWord s b x) ⟨j, hj⟩ := by
  have hdiv : (3 * x + j) / 3 = x := by omega
  have hmod : (3 * x + j) % 3 = j := by omega
  simp only [encodedByte, hdiv, hmod]

/-- The byte of the triple that holds bits `8 q + 7` to `8 q` of the column word (R28, R101). -/
def byteSlot (byteord : Bool) (q : Nat) : Nat := if byteord then q else 2 - q

theorem byteSlot_lt (o : Bool) {q : Nat} (h : q < 3) : byteSlot o q < 3 := by
  unfold byteSlot; split <;> omega

/-- The byte map is its own inverse. -/
theorem byteSlot_byteSlot (o : Bool) {q : Nat} (h : q < 3) : byteSlot o (byteSlot o q) = q := by
  unfold byteSlot; split <;> omega

theorem byteOf_getLsbD_byteSlot (o : Bool) (w : Col) (k : Fin 3) (p : Nat) :
    (byteOf o w k).getLsbD p = (decide (p < 8) && w.getLsbD (8 * byteSlot o k.val + p)) :=
  byteOf_getLsbD o w k p

/-- Bit `p` of a column word stands in byte `byteSlot (p / 8)` of its triple, at bit `p mod 8`. -/
theorem encodedByte_getLsbD_byteSlot (s : State) (b x : Nat) {p : Nat} (hp : p < 24) :
    (encodedByte s b (3 * x + byteSlot (byteOrd s) (p / 8))).getLsbD (p % 8) =
      (colWord s b x).getLsbD p := by
  have hq : p / 8 < 3 := by omega
  rw [encodedByte_triple s b x (byteSlot_lt _ hq), byteOf_getLsbD_byteSlot, byteSlot_byteSlot _ hq,
    Nat.div_add_mod]
  simp [Nat.mod_lt]

theorem colWord_getLsbD_rowBit (s : State) (b x : Nat) {r : Nat} (hr : r < 24) :
    (colWord s b x).getLsbD (rowBit (rowOrd s) r) = decide (bandCell s b r x = 1) := by
  rw [colWord_getLsbD, rowBit_rowBit _ hr]
  simp [rowBit_lt _ hr]

/-- Settles O24: the row goes to a bit of the column word, and that bit to a byte of the triple. -/
theorem packingOrders : Obligations.PackingOrders := by
  intro s b x r _ _ hr
  exact (encodedByte_getLsbD_byteSlot s b x (rowBit_lt _ hr)).trans (colWord_getLsbD_rowBit s b x hr)

end Sys2Proof.Machine
end

section
/-! PROOFS, family 40_config_and_dimension: `NOP`, `WRREG`, `RDREG` and `CALC` in every mode (R83, R84,
R86, R90, R124, R125) and the words of theirs that are illegal (R73). -/

namespace Sys2Proof

/-! ## The decoder of an opcode (R70) -/

theorem decode_of_op_nop {cmd : Word} (h : opField cmd = 0x00) : decode cmd = decodeN cmd .nop := by
  simp [decode, h]

theorem decode_of_op_wrreg {cmd : Word} (h : opField cmd = 0x01) : decode cmd = decodeWrreg cmd := by
  simp [decode, h]

theorem decodeN_of_operand_ne {cmd : Word} (h : operandField cmd ≠ 0) (i : Instr) :
    decodeN cmd i = .error .operandNotZero := if_neg h

theorem decodeWrreg_of_reg_not_writable {cmd : Word}
    (h : (regField cmd).toNat < 1 ∨ 5 < (regField cmd).toNat) :
    decodeWrreg cmd = .error .registerNotWritable := by
  have hnone : writableReg? (regField cmd) = none := by
    rw [← Option.not_isSome_iff_eq_none, writableReg?_isSome]
    omega
  simp [decodeWrreg, hnone]

theorem decodeWrreg_of_cfg_bits_ne {cmd : Word} (hreg : regField cmd = 1)
    (hbits : cmd.extractLsb' 4 12 ≠ 0) : decodeWrreg cmd = .error .cfgBitsNotZero := by
  have himm : (immField cmd).extractLsb' 4 12 = cmd.extractLsb' 4 12 :=
    BitVec.extractLsb'_extractLsb'_of_le (by decide)
  have hcfg : writableReg? (regField cmd) = some .cfg := by rw [hreg]; rfl
  have hwf : (Instr.wrreg .cfg (immField cmd)).wf = false := by simpa [Instr.wf, himm] using hbits
  simp [decodeWrreg, hcfg, hwf]

/-- A `RDREG` word is legal when it names one of the thirteen registers and nothing else (R73). -/
theorem legal_of_op_rdreg {cmd : Word} (h : opField cmd = 0x02) :
    legal cmd = true ↔ (regField cmd).toNat ≤ 12 ∧ immField cmd = 0 := by
  simp [legal_iff, h]

end Sys2Proof

namespace Sys2Proof.Machine

theorem raisesIllcmd_of_decode_error {cmd : Word} {e : IllegalWord} (h : decode cmd = .error e) :
    RaisesIllcmd cmd := by
  apply raisesIllcmd_of_illegal
  rw [← Bool.not_eq_true, ← decode_ok_iff_legal, h]
  simp

/-! ## The rows of the permission table (R125) -/

theorem alwaysRow_of_ne_busy {m : Mode} (h : m ≠ .busy) : alwaysRow m = .ok := by
  cases m <;> simp [alwaysRow] at h ⊢

theorem exec_of_fault {i : Instr} {s : State} (hm : s.mode = .fault)
    (hp : permission i .fault = .discard) : exec i s = .next s := by
  by_cases hw : i.wf = true
  · exact exec_of_discard hw (hm ▸ hp)
  · rw [exec_eq_attempt, attempt, if_neg hw, illegalWord_of_fault hm]

/-- A command permitted in mode IDLE only raises `E_SEQ` in modes LOADING and DONE. -/
theorem exec_idleOnly_of_loading_or_done {i : Instr} {s : State} (hw : i.wf = true)
    (hrow : permission i = onlyInRow .idle) (hm : s.mode = .loading ∨ s.mode = .done) :
    exec i s = .next (raiseFault .seq (encode i) s) := by
  apply exec_of_seq hw
  rw [hrow]
  obtain hm | hm := hm <;> rw [hm] <;> rfl

theorem step_of_busy {s : State} (hm : s.mode = .busy) (hr : rstHigh s = false) :
    step s = engineStep (tickRst s) := by
  simp [step, hm, hr]

/-! ## NOP, WRREG, RDREG -/

/-- Settles O13: the row of `NOP` permits it in every mode a word is accepted in. -/
theorem nopRule : Obligations.NopRule := by
  refine ⟨fun s hm => exec_of_ok rfl (alwaysRow_of_ne_busy hm), fun s => step_of_busy, by decide,
    fun cmd hop hz => ?_⟩
  have hd : decode cmd = .error .operandNotZero :=
    (decode_of_op_nop hop).trans (decodeN_of_operand_ne hz .nop)
  exact ⟨hd, raisesIllcmd_of_decode_error hd⟩

theorem exec_wrreg_of_idle {r : WritableReg} {v : Half} {s : State}
    (hw : (Instr.wrreg r v).wf = true) (hm : s.mode = .idle) :
    exec (.wrreg r v) s = .next (writeReg r v s) :=
  exec_of_ok hw (by rw [hm]; rfl)

/-- Settles O14, by the modes; the two kinds of illegal word are the two errors of `decodeWrreg`. -/
theorem wrregRule : Obligations.WrregRule := by
  refine ⟨fun s v hm => ?_, fun s r v hw hm => exec_idleOnly_of_loading_or_done hw rfl hm,
    fun s r v hm => exec_of_fault hm rfl, fun cmd hop => ⟨fun hreg => ?_, fun hreg hbits => ?_⟩⟩
  · exact ⟨fun hz => exec_wrreg_of_idle ((wf_wrreg_iff .cfg v).2 (.inr hz)) hm,
      exec_wrreg_of_idle rfl hm, exec_wrreg_of_idle rfl hm, exec_wrreg_of_idle rfl hm,
      exec_wrreg_of_idle rfl hm⟩
  · have hd : decode cmd = .error .registerNotWritable :=
      (decode_of_op_wrreg hop).trans (decodeWrreg_of_reg_not_writable hreg)
    exact ⟨hd, raisesIllcmd_of_decode_error hd⟩
  · have hd : decode cmd = .error .cfgBitsNotZero :=
      (decode_of_op_wrreg hop).trans (decodeWrreg_of_cfg_bits_ne hreg hbits)
    exact ⟨hd, raisesIllcmd_of_decode_error hd⟩

/-- Settles O15: the row of `RDREG` permits it in every mode a word is accepted in. -/
theorem rdregRule : Obligations.RdregRule := by
  refine ⟨fun s r hm => exec_of_ok rfl (alwaysRow_of_ne_busy hm), fun cmd hop hbad => ?_⟩
  apply raisesIllcmd_of_illegal
  rw [← Bool.not_eq_true, legal_of_op_rdreg hop]
  rintro ⟨hreg, himm⟩
  exact hbad.elim (Nat.not_lt.2 hreg) fun hne => hne himm

/-! ## CALC -/

theorem calcOperation_of_zero {s : State} (h : s.ow = 0 ∨ s.oh = 0) :
    calcOperation s = .next (raiseFault .dim (encode .calcDims) s) := if_pos h

theorem calcOperation_of_wide {s : State} (how : s.ow ≠ 0) (hoh : s.oh ≠ 0)
    (h : wmax s < calcWidth s) :
    calcOperation s = .next (raiseFault .wmax (encode .calcDims) s) := by
  rw [calcOperation, if_neg (not_or.2 ⟨how, hoh⟩), if_pos h]

theorem calcOperation_of_fits {s : State} (how : s.ow ≠ 0) (hoh : s.oh ≠ 0)
    (h : calcWidth s ≤ wmax s) :
    calcOperation s = .next { s with w := BitVec.ofNat 16 (calcWidth s), h := 120 } := by
  rw [calcOperation, if_neg (not_or.2 ⟨how, hoh⟩), if_neg (Nat.not_lt.2 h)]

/-- A width the block allows is stored exactly: `WMAX` is below `2^16` (R5). -/
theorem toNat_ofNat_of_le_wmax {s : State} {t : Nat} (h : t ≤ wmax s) :
    (BitVec.ofNat 16 t : Half).toNat = t := by
  have hmax := wmax_le s
  rw [BitVec.toNat_ofNat, Nat.mod_eq_of_lt (by omega)]

/-- Settles O17: in mode IDLE by the checks of R90 in their order, then by the other modes. -/
theorem calcRule : Obligations.CalcRule := by
  refine ⟨fun s hm => ?_, fun s hm => exec_idleOnly_of_loading_or_done rfl rfl hm,
    fun s hm => exec_of_fault hm rfl⟩
  have hexec : exec .calcDims s = calcOperation s := exec_of_ok rfl (by rw [hm]; rfl)
  rw [hexec]
  exact ⟨calcOperation_of_zero, calcOperation_of_wide,
    fun how hoh hfit => ⟨calcOperation_of_fits how hoh hfit, toNat_ofNat_of_le_wmax hfit⟩⟩

end Sys2Proof.Machine
end

section
/-! PROOFS, family 40_config_and_dimension: the values `RDREG` returns (R30, R87). -/

namespace Sys2Proof.Machine

/-- `STATUS` as a number: `MODE` at bit 0, `ERR` at bit 4, `BANDRDY` at bit 8 (R30). -/
theorem statusWord_toNat (s : State) :
    (statusWord s).toNat =
      s.bandrdy.toNat * 256 + ((errField s.err).toNat * 16 + s.mode.code.toNat) := by
  simp only [statusWord, toNat_append_eq_add]
  simp

/-- `STATUS` in mode FAULT, by its fault code and the ready flags. -/
theorem statusWord_toNat_of_fault {s : State} {e : ErrCode} (hm : s.mode = .fault)
    (he : s.err = some e) :
    (statusWord s).toNat = 4 + 16 * e.code.toNat + s.bandrdy.toNat * 256 := by
  have hcode : Mode.fault.code.toNat = 4 := rfl
  rw [statusWord_toNat, hm, he, hcode, errField]
  omega

theorem extractLsb'_eq_of_toNat {w : Word} {start n : Nat} {v : BitVec n}
    (h : w.toNat / 2 ^ start % 2 ^ n = v.toNat) : w.extractLsb' start n = v := by
  apply BitVec.eq_of_toNat_eq
  rw [BitVec.extractLsb'_toNat, Nat.shiftRight_eq_div_pow, h]

/-- The three fields of `STATUS` and its zero bits (R30, R87). -/
theorem statusWord_fields (s : State) :
    (statusWord s).extractLsb' 0 3 = s.mode.code ∧ (statusWord s).getLsbD 3 = false ∧
    (statusWord s).extractLsb' 4 4 = errField s.err ∧ (statusWord s).extractLsb' 8 5 = s.bandrdy ∧
    (statusWord s).extractLsb' 13 19 = 0 := by
  have hval := statusWord_toNat s
  have hmode := s.mode.code.isLt
  have herr := (errField s.err).isLt
  have hrdy := s.bandrdy.isLt
  refine ⟨extractLsb'_eq_of_toNat ?_, ?_, extractLsb'_eq_of_toNat ?_, extractLsb'_eq_of_toNat ?_,
    extractLsb'_eq_of_toNat ?_⟩
  · omega
  · rw [BitVec.getLsbD, hval, Nat.testBit_eq_decide_div_mod_eq, decide_eq_false_iff_not]
    omega
  · omega
  · omega
  · have hzero : (0 : BitVec 19).toNat = 0 := rfl
    rw [hzero]
    omega

/-- The four fields of `CFG` and the zero bits of what `RDREG` returns for it (R25, R87). -/
theorem readReg_cfg_fields (s : State) :
    (readReg .cfg s).getLsbD 0 = rowOrd s ∧ (readReg .cfg s).getLsbD 1 = byteOrd s ∧
    (readReg .cfg s).extractLsb' 2 1 = invBit s ∧ (readReg .cfg s).getLsbD 3 = resizeAspect s ∧
    (readReg .cfg s).extractLsb' 4 28 = 0 := by
  have hall : ∀ cfg : BitVec 4,
      (cfg.setWidth 32).getLsbD 0 = cfg.getLsbD 0 ∧ (cfg.setWidth 32).getLsbD 1 = cfg.getLsbD 1 ∧
      (cfg.setWidth 32).extractLsb' 2 1 = cfg.extractLsb' 2 1 ∧
      (cfg.setWidth 32).getLsbD 3 = cfg.getLsbD 3 ∧ (cfg.setWidth 32).extractLsb' 4 28 = 0 := by
    decide
  exact hall s.cfg

theorem toNat_zext_half (v : Half) : (v.setWidth 32).toNat = v.toNat :=
  BitVec.toNat_setWidth_of_le (by decide)

/-! ## The values of STATUS in states of the invariant (R39) -/

theorem Inv.err_none {s : State} (hs : Inv s) (hm : s.mode ≠ .fault) : s.err = none := by
  by_contra he
  exact hm (hs.err_iff.1 he)

theorem Inv.bandrdy_of_idle_or_loading {s : State} (hs : Inv s)
    (hm : s.mode = .idle ∨ s.mode = .loading) : s.bandrdy = 0 := by
  obtain ⟨hz, -⟩ | ⟨-, hd⟩ | ⟨hb, -⟩ := hs.bandrdy_cases
  · exact hz
  · obtain hm | hm := hm <;> simp [hm] at hd
  · obtain hm | hm := hm <;> simp [hm] at hb

theorem Inv.bandrdy_of_done {s : State} (hs : Inv s) (hm : s.mode = .done) : s.bandrdy = 0x1F :=
  ((jobInv_done hm).1 hs.job).bandrdy_all

theorem Inv.bandrdy_of_fault {s : State} (hs : Inv s) (hm : s.mode = .fault) :
    s.bandrdy = 0 ∨ s.bandrdy = 0x1F := by
  obtain ⟨hz, -⟩ | ⟨hall, -⟩ | ⟨hb, -⟩ := hs.bandrdy_cases
  · exact .inl hz
  · exact .inr hall
  · simp [hm] at hb

/-- Settles O16: the fields by their places, the values of `STATUS` from what `Inv` says of `ERR` and
`BANDRDY` in each mode. -/
theorem registerReadBits : Obligations.RegisterReadBits := by
  refine ⟨by decide, fun s => ?_, fun s hs => ⟨fun hm => ?_, fun hm => ?_, fun hm => ?_, fun hm => ?_,
    fun code cmd => ⟨fun hm => ?_, fun hm => ?_⟩⟩⟩
  · exact ⟨statusWord_fields s, readReg_cfg_fields s,
      ⟨toNat_zext_half _, toNat_zext_half _, toNat_zext_half _, toNat_zext_half _⟩, rfl, rfl,
      fun b => toNat_zext_half _⟩
  · rw [readReg, statusWord, hs.bandrdy_of_idle_or_loading (.inl hm), hs.err_none (by simp [hm]), hm]
    rfl
  · rw [readReg, statusWord, hs.bandrdy_of_idle_or_loading (.inr hm), hs.err_none (by simp [hm]), hm]
    rfl
  · rw [readReg, statusWord, hs.bandrdy_of_done hm, hs.err_none (by simp [hm]), hm]
    rfl
  · obtain ⟨e, he⟩ := Option.ne_none_iff_exists'.1 (hs.err_iff.2 hm)
    refine ⟨e, he, (hs.bandrdy_of_fault hm).imp (fun hz => ?_) fun hall => ?_⟩
    · rw [readReg, statusWord_toNat_of_fault hm he, hz]; rfl
    · rw [readReg, statusWord_toNat_of_fault hm he, hall]; rfl
  · rw [readReg, statusWord_toNat_of_fault rfl rfl, raiseFault_bandrdy,
      hs.bandrdy_of_idle_or_loading hm]
    rfl
  · rw [readReg, statusWord_toNat_of_fault rfl rfl, raiseFault_bandrdy, hs.bandrdy_of_done hm]
    rfl

end Sys2Proof.Machine
end

section
/-! PROOFS, family 40_config_and_dimension: the rounded quotient (R89) and the laws of the target width
(R91). -/

namespace Sys2Proof.Machine

/-- Everything `RoundDiv` can answer, by the remainder against half the divisor (R89). -/
theorem roundDiv_cases (n d : Nat) (tie : RoundTie) :
    (2 * (n % d) < d ∧ roundDiv n d tie = n / d) ∨
    (d < 2 * (n % d) ∧ roundDiv n d tie = n / d + 1) ∨
    (2 * (n % d) = d ∧
      roundDiv n d tie = if tie = .halfEven ∧ n / d % 2 = 0 then n / d else n / d + 1) := by
  obtain hlt | heq | hgt := Nat.lt_trichotomy (2 * (n % d)) d
  · exact .inl ⟨hlt, by simp [roundDiv, hlt]⟩
  · refine .inr (.inr ⟨heq, ?_⟩)
    cases tie <;> simp [roundDiv, heq]
  · exact .inr (.inl ⟨hgt, by simp [roundDiv, hgt, Nat.not_lt.2 hgt.le]⟩)

theorem roundDiv_of_tie {n d : Nat} (h : 2 * (n % d) = d) (tie : RoundTie) :
    roundDiv n d tie = if tie = .halfEven ∧ n / d % 2 = 0 then n / d else n / d + 1 := by
  obtain ⟨hlt, -⟩ | ⟨hgt, -⟩ | ⟨-, hq⟩ := roundDiv_cases n d tie
  · exact absurd h hlt.ne
  · exact absurd h hgt.ne'
  · exact hq

/-- Off a tie the two tie rules agree (R89). -/
theorem roundDiv_eq_of_not_tie {n d : Nat} (h : 2 * (n % d) ≠ d) (tie tie' : RoundTie) :
    roundDiv n d tie = roundDiv n d tie' := by
  obtain hlt | hgt := Nat.lt_or_gt_of_ne h
  · simp [roundDiv, hlt]
  · simp [roundDiv, hgt, Nat.not_lt.2 hgt.le]

theorem roundDiv_of_dvd {n d : Nat} (hd : 1 ≤ d) (h : n % d = 0) (tie : RoundTie) :
    roundDiv n d tie = n / d := by
  have hlt : 2 * (n % d) < d := by omega
  simp [roundDiv, hlt]

theorem div_le_roundDiv (n d : Nat) (tie : RoundTie) : n / d ≤ roundDiv n d tie := by
  obtain ⟨-, hq⟩ | ⟨-, hq⟩ | ⟨-, hq⟩ := roundDiv_cases n d tie
  · exact hq.ge
  · omega
  · rw [hq]; split <;> omega

/-! ## The nearest integer (R91) -/

/-- `a` is at most half of `d` away from `n`, without the distance. -/
theorem two_mul_natAbs_sub_le_iff (a n d : Nat) :
    2 * ((a : Int) - (n : Int)).natAbs ≤ d ↔ 2 * a ≤ 2 * n + d ∧ 2 * n ≤ 2 * a + d := by
  omega

theorem roundDiv_nearest {n d : Nat} (hd : 1 ≤ d) (tie : RoundTie) :
    2 * (roundDiv n d tie * d) ≤ 2 * n + d ∧ 2 * n ≤ 2 * (roundDiv n d tie * d) + d := by
  have hn : n / d * d + n % d = n := Nat.div_add_mod' n d
  have hlt : n % d < d := Nat.mod_lt n hd
  have hsucc : (n / d + 1) * d = n / d * d + d := Nat.succ_mul _ _
  obtain ⟨hr, hq⟩ | ⟨hr, hq⟩ | ⟨hr, hq⟩ := roundDiv_cases n d tie
  · rw [hq]; omega
  · rw [hq, hsucc]; omega
  · rw [hq]
    split
    · omega
    · rw [hsucc]; omega

/-- Off a tie, a multiple of `d` not too far above `n` is at most one not too far below it. -/
theorem le_of_nearest {n d m q : Nat} (hd : 1 ≤ d) (hm : 2 * (m * d) ≤ 2 * n + d)
    (hq : 2 * n ≤ 2 * (q * d) + d) (htie : 2 * (n % d) ≠ d) : m ≤ q := by
  by_contra hgt
  have hmul : (q + 1) * d ≤ m * d := Nat.mul_le_mul_right d (Nat.not_le.1 hgt)
  rw [Nat.succ_mul] at hmul
  have hmid : n = d / 2 + q * d := by omega
  have hmod : n % d = d / 2 := by
    rw [hmid, Nat.add_mul_mod_self_right, Nat.mod_eq_of_lt (by omega)]
  omega

/-- The only nearest integer off a tie is the rounded quotient. -/
theorem eq_roundDiv_of_nearest {n d m : Nat} (hd : 1 ≤ d) (tie : RoundTie)
    (hm : 2 * (m * d) ≤ 2 * n + d ∧ 2 * n ≤ 2 * (m * d) + d) (htie : 2 * (n % d) ≠ d) :
    m = roundDiv n d tie := by
  obtain ⟨habove, hbelow⟩ := hm
  obtain ⟨hqabove, hqbelow⟩ := roundDiv_nearest (n := n) hd tie
  exact Nat.le_antisymm (le_of_nearest hd habove hqbelow htie)
    (le_of_nearest hd hqabove hbelow htie)

/-! ## Ties and the quotient 0 -/

theorem roundDiv_tie_even {n d : Nat} (h : 2 * (n % d) = d) (heven : n / d % 2 = 0) :
    roundDiv n d .halfEven = n / d ∧ roundDiv n d .halfUp = n / d + 1 := by
  simp [roundDiv_of_tie h, heven]

theorem roundDiv_tie_odd {n d : Nat} (h : 2 * (n % d) = d) (hodd : n / d % 2 = 1) (tie : RoundTie) :
    roundDiv n d tie = n / d + 1 := by
  simp [roundDiv_of_tie h, hodd]

/-- The two tie rules differ exactly at a tie with an even quotient. -/
theorem roundDiv_halfEven_ne_halfUp_iff (n d : Nat) :
    roundDiv n d .halfEven ≠ roundDiv n d .halfUp ↔ 2 * (n % d) = d ∧ n / d % 2 = 0 := by
  constructor
  · intro hne
    have htie : 2 * (n % d) = d := by
      by_contra hnot
      exact hne (roundDiv_eq_of_not_tie hnot _ _)
    refine ⟨htie, ?_⟩
    by_contra hnot
    have hodd : n / d % 2 = 1 := Nat.mod_two_ne_zero.1 hnot
    exact hne ((roundDiv_tie_odd htie hodd _).trans (roundDiv_tie_odd htie hodd _).symm)
  · rintro ⟨htie, heven⟩
    obtain ⟨hdown, hup⟩ := roundDiv_tie_even htie heven
    omega

theorem roundDiv_eq_zero_iff {n d : Nat} (hd : 1 ≤ d) (tie : RoundTie) :
    roundDiv n d tie = 0 ↔ 2 * n < d ∨ 2 * n = d ∧ tie = .halfEven := by
  by_cases hlt : n < d
  · have hdiv : n / d = 0 := Nat.div_eq_of_lt hlt
    have hmod : n % d = n := Nat.mod_eq_of_lt hlt
    have hcases := roundDiv_cases n d tie
    rw [hdiv, hmod] at hcases
    obtain ⟨hr, hq⟩ | ⟨hr, hq⟩ | ⟨hr, hq⟩ := hcases
    · simp [hq, hr]
    · simp [hq, hr.ne', Nat.not_lt.2 hr.le]
    · simp [hq, hr]
  · have hpos : 1 ≤ n / d := Nat.div_pos (Nat.not_lt.1 hlt) hd
    have hle := div_le_roundDiv n d tie
    omega

/-- Settles O18: the laws of R91 in their order, each a lemma about `RoundDiv` over every `n` and `d`. -/
theorem calcLaws : Obligations.CalcLaws := by
  refine ⟨fun s hstretch => ?_, fun n d tie hd => ⟨?_, fun m hm => ?_⟩, fun ow tie => ?_,
    fun n d tie hd hdvd => roundDiv_of_dvd hd hdvd tie,
    fun n d _ => ⟨roundDiv_halfEven_ne_halfUp_iff n d, roundDiv_tie_even⟩,
    fun n d tie _ htie hodd => roundDiv_tie_odd htie hodd tie, fun ow oh tie hoh => ?_⟩
  · rw [calcWidth, resizeAspect, hstretch, if_neg Bool.false_ne_true]
  · exact (two_mul_natAbs_sub_le_iff _ n d).2 (roundDiv_nearest hd tie)
  · by_cases htie : 2 * (n % d) = d
    · exact .inr htie
    · exact .inl (eq_roundDiv_of_nearest hd tie ((two_mul_natAbs_sub_le_iff _ n d).1 hm) htie)
  · rw [roundDiv_of_dvd (by decide) (Nat.mul_mod_right 120 ow), Nat.mul_div_cancel_left ow (by decide)]
  · have hdouble : 2 * (120 * ow) = 240 * ow := by omega
    rw [roundDiv_eq_zero_iff hoh, hdouble]

end Sys2Proof.Machine
end

section
/-! PROOFS, family 40_config_and_dimension: the frame of the commands other than `PUSH` and `SRST`. What
their effects leave alone is said in three parts: the fields none of them writes, the configuration
registers, and the fields of the job; fault entry and a discarded word change less. -/

namespace Sys2Proof.Machine

/-! ## The fields no such command writes -/

/-- The fields that only `PUSH`, `SRST`, the engine and the inputs change. -/
structure SameStore (s t : State) : Prop where
  canvas : t.canvas = s.canvas
  band : t.band = s.band
  bandrdy : t.bandrdy = s.bandrdy
  bandw : t.bandw = s.bandw
  col : t.col = s.col
  port : t.port = s.port
  rst : t.rst = s.rst
  params : t.params = s.params
  epoch : t.epoch = s.epoch

theorem SameStore.canvasRead {s t : State} (h : SameStore s t) (row col : Nat) :
    canvasRead t row col = canvasRead s row col := by
  unfold Machine.canvasRead
  rw [h.canvas, h.epoch]

theorem SameStore.bandRead {s t : State} (h : SameStore s t) (b i : Nat) :
    bandRead t b i = bandRead s b i := by
  unfold Machine.bandRead
  rw [h.band, h.epoch]

theorem SameStore.refl (s : State) : SameStore s s := ⟨rfl, rfl, rfl, rfl, rfl, rfl, rfl, rfl, rfl⟩

theorem sameStore_raiseFault (c : ErrCode) (cmd : Word) (s : State) :
    SameStore s (raiseFault c cmd s) := ⟨rfl, rfl, rfl, rfl, rfl, rfl, rfl, rfl, rfl⟩

theorem sameStore_respond (v : Word) (s : State) : SameStore s (respond v s) :=
  ⟨rfl, rfl, rfl, rfl, rfl, rfl, rfl, rfl, rfl⟩

theorem sameStore_writeReg (r : WritableReg) (v : Half) (s : State) :
    SameStore s (writeReg r v s) := by
  constructor <;> simp

theorem Effect.sameStore {i : Instr} {s t : State} (h : Effect i s t) (hpush : ∀ p, i ≠ .push p)
    (hsrst : i ≠ .srst) : SameStore s t := by
  cases i with
  | nop => cases h; exact .refl _
  | wrreg r imm16 => obtain ⟨-, rfl⟩ := h; exact sameStore_writeReg _ _ _
  | rdreg r => obtain ⟨-, rfl⟩ := h; exact sameStore_respond _ _
  | calcDims => obtain ⟨-, -, -, -, rfl⟩ := h; exact ⟨rfl, rfl, rfl, rfl, rfl, rfl, rfl, rfl, rfl⟩
  | beginLoad => obtain ⟨-, -, -, -, rfl⟩ := h; exact ⟨rfl, rfl, rfl, rfl, rfl, rfl, rfl, rfl, rfl⟩
  | push p => exact absurd rfl (hpush p)
  | encode => obtain ⟨-, -, rfl⟩ := h; exact ⟨rfl, rfl, rfl, rfl, rfl, rfl, rfl, rfl, rfl⟩
  | rdband b idx => obtain ⟨-, -, -, -, rfl⟩ := h; exact sameStore_respond _ _
  | srst => exact absurd rfl hsrst

/-! ## The configuration registers -/

/-- Each configuration register changes only by the commands that write it (R84, R90). -/
structure ConfigFrame (i : Instr) (s t : State) : Prop where
  cfg : (∀ v, i ≠ .wrreg .cfg v) → t.cfg = s.cfg
  w : (∀ v, i ≠ .wrreg .w v) → i ≠ .calcDims → t.w = s.w
  h : (∀ v, i ≠ .wrreg .h v) → i ≠ .calcDims → t.h = s.h
  ow : (∀ v, i ≠ .wrreg .ow v) → t.ow = s.ow
  oh : (∀ v, i ≠ .wrreg .oh v) → t.oh = s.oh

theorem SameConfig.configFrame {i : Instr} {s t : State} (h : SameConfig s t) :
    ConfigFrame i s t := by
  obtain ⟨hcfg, hw, hh, how, hoh⟩ := h
  exact ⟨fun _ => hcfg, fun _ _ => hw, fun _ _ => hh, fun _ => how, fun _ => hoh⟩

/-- `WRREG` to one register leaves the other four alone. -/
theorem configFrame_writeReg (r : WritableReg) (v : Half) (s : State) :
    ConfigFrame (.wrreg r v) s (writeReg r v s) := by
  cases r <;> constructor <;> simp [writeReg]

theorem Effect.configFrame {i : Instr} {s t : State} (h : Effect i s t) (hsrst : i ≠ .srst) :
    ConfigFrame i s t := by
  cases i with
  | nop => cases h; exact SameConfig.configFrame (.refl _)
  | wrreg r imm16 => obtain ⟨-, rfl⟩ := h; exact configFrame_writeReg _ _ _
  | rdreg r => obtain ⟨-, rfl⟩ := h; exact SameConfig.configFrame (.refl _)
  | calcDims =>
    obtain ⟨-, -, -, -, rfl⟩ := h
    exact ⟨fun _ => rfl, fun _ hne => absurd rfl hne, fun _ hne => absurd rfl hne, fun _ => rfl,
      fun _ => rfl⟩
  | beginLoad => obtain ⟨-, -, -, -, rfl⟩ := h; exact SameConfig.configFrame (.refl _)
  | push p =>
    obtain ⟨-, -, -, ⟨-, -, rfl⟩ | ⟨-, rfl⟩⟩ := h <;> exact SameConfig.configFrame (.refl _)
  | encode => obtain ⟨-, -, rfl⟩ := h; exact SameConfig.configFrame (.refl _)
  | rdband b idx => obtain ⟨-, -, -, -, rfl⟩ := h; exact SameConfig.configFrame (.refl _)
  | srst => exact absurd rfl hsrst

/-! ## The fields of the job -/

/-- `LOADCNT` changes only by `BEGIN`, `POS` by `ENCODE`, and an effect leaves `ERR` and `ERRCMD`. -/
structure JobFrame (i : Instr) (s t : State) : Prop where
  loadcnt : i ≠ .beginLoad → t.loadcnt = s.loadcnt
  pos : i ≠ .encode → t.pos = s.pos
  err : t.err = s.err
  errcmd : t.errcmd = s.errcmd

theorem Effect.jobFrame {i : Instr} {s t : State} (h : Effect i s t) (hpush : ∀ p, i ≠ .push p)
    (hsrst : i ≠ .srst) : JobFrame i s t := by
  cases i with
  | nop => cases h; exact ⟨fun _ => rfl, fun _ => rfl, rfl, rfl⟩
  | wrreg r imm16 => obtain ⟨-, rfl⟩ := h; constructor <;> simp
  | rdreg r => obtain ⟨-, rfl⟩ := h; exact ⟨fun _ => rfl, fun _ => rfl, rfl, rfl⟩
  | calcDims => obtain ⟨-, -, -, -, rfl⟩ := h; exact ⟨fun _ => rfl, fun _ => rfl, rfl, rfl⟩
  | beginLoad =>
    obtain ⟨-, -, -, -, rfl⟩ := h
    exact ⟨fun hne => absurd rfl hne, fun _ => rfl, rfl, rfl⟩
  | push p => exact absurd rfl (hpush p)
  | encode => obtain ⟨-, -, rfl⟩ := h; exact ⟨fun _ => rfl, fun hne => absurd rfl hne, rfl, rfl⟩
  | rdband b idx => obtain ⟨-, -, -, -, rfl⟩ := h; exact ⟨fun _ => rfl, fun _ => rfl, rfl, rfl⟩
  | srst => exact absurd rfl hsrst

/-! ## A command that answers a next state -/

section
variable {i : Instr} {s t : State}

theorem exec_sameStore (h : exec i s = .next t) (hpush : ∀ p, i ≠ .push p) (hsrst : i ≠ .srst) :
    SameStore s t := by
  obtain rfl | ⟨-, c, rfl⟩ | ⟨-, heffect⟩ := exec_next h
  · exact .refl _
  · exact sameStore_raiseFault _ _ _
  · exact heffect.sameStore hpush hsrst

theorem exec_configFrame (h : exec i s = .next t) (hsrst : i ≠ .srst) : ConfigFrame i s t := by
  obtain rfl | ⟨-, c, rfl⟩ | ⟨-, heffect⟩ := exec_next h
  · exact SameConfig.configFrame (.refl _)
  · exact SameConfig.configFrame (.refl _)
  · exact heffect.configFrame hsrst

theorem exec_loadcnt_pos (h : exec i s = .next t) (hpush : ∀ p, i ≠ .push p) (hsrst : i ≠ .srst) :
    (i ≠ .beginLoad → t.loadcnt = s.loadcnt) ∧ (i ≠ .encode → t.pos = s.pos) := by
  obtain rfl | ⟨-, c, rfl⟩ | ⟨-, heffect⟩ := exec_next h
  · exact ⟨fun _ => rfl, fun _ => rfl⟩
  · exact ⟨fun _ => rfl, fun _ => rfl⟩
  · obtain ⟨hloadcnt, hpos, -, -⟩ := heffect.jobFrame hpush hsrst
    exact ⟨hloadcnt, hpos⟩

/-- Only the entry into mode FAULT records a fault (R128). -/
theorem exec_err_errcmd (h : exec i s = .next t) (hpush : ∀ p, i ≠ .push p) (hsrst : i ≠ .srst)
    (hm : t.mode ≠ .fault ∨ s.mode = .fault) : t.err = s.err ∧ t.errcmd = s.errcmd := by
  obtain rfl | ⟨hf, c, rfl⟩ | ⟨-, heffect⟩ := exec_next h
  · exact ⟨rfl, rfl⟩
  · obtain hne | hfault := hm
    · exact absurd rfl hne
    · simp [faultable, hfault] at hf
  · obtain ⟨-, -, herr, herrcmd⟩ := heffect.jobFrame hpush hsrst
    exact ⟨herr, herrcmd⟩

theorem exec_resp_of_no_read (h : exec i s = .next t) (hrdreg : ∀ r, i ≠ .rdreg r)
    (hrdband : ∀ b j, i ≠ .rdband b j) : t.resp = s.resp := by
  obtain rfl | ⟨-, c, rfl⟩ | ⟨-, heffect⟩ := exec_next h
  · rfl
  · rfl
  · obtain hsame | ⟨r, hi, -⟩ | ⟨b, j, hi, -⟩ := heffect.resp
    · exact hsame
    · exact absurd hi (hrdreg r)
    · exact absurd hi (hrdband b j)

theorem exec_mode_same_or_fault (h : exec i s = .next t) (hbegin : i ≠ .beginLoad)
    (hencode : i ≠ .encode) (hsrst : i ≠ .srst) : t.mode = s.mode ∨ t.mode = .fault := by
  obtain hsame | ⟨-, hfault⟩ | ⟨hi, -⟩ | ⟨hi, -⟩ | ⟨hi, -⟩ := exec_mode h
  · exact .inl hsame
  · exact .inr hfault
  · exact absurd hi hbegin
  · exact absurd hi hencode
  · exact absurd hi hsrst

end

/-- Settles O48, field by field from what a command can do (`exec_next`). -/
theorem registerCommandsFrame : Obligations.RegisterCommandsFrame := by
  intro i s t h hpush hsrst
  have hstore := exec_sameStore h hpush hsrst
  obtain ⟨hcfg, hw, hh, how, hoh⟩ := exec_configFrame h hsrst
  obtain ⟨hloadcnt, hpos⟩ := exec_loadcnt_pos h hpush hsrst
  exact ⟨hstore.canvasRead, hstore.bandRead, hcfg, hw, hh, how, hoh, hloadcnt, hpos,
    exec_resp_of_no_read h, fun hbegin hencode => exec_mode_same_or_fault h hbegin hencode hsrst,
    exec_err_errcmd h hpush hsrst, hstore.bandrdy, hstore.bandw, hstore.col, hstore.port,
    hstore.rst, hstore.params, hstore.epoch⟩

end Sys2Proof.Machine
end

section
/-! PROOFS, family 41_canvas_load: `BEGIN` and `PUSH` in every mode (R93, R94, R124, R125), the
illegal words of `PUSH` (R68, R73), and the frame of `PUSH`. -/

namespace Sys2Proof

theorem decode_of_op_push {cmd : Word} (h : opField cmd = 0x05) : decode cmd = decodePush cmd := by
  simp [decode, h]

theorem decodePush_of_highBits_ne {cmd : Word} (h : cmd.extractLsb' 1 23 ≠ 0) :
    decodePush cmd = .error .pixelBitsNotZero := if_neg h

end Sys2Proof

namespace Sys2Proof.Machine

/-! ## BEGIN -/

theorem beginOperation_of_width_zero {s : State} (h : s.w = 0) :
    beginOperation s = .next (raiseFault .width0 (encode .beginLoad) s) := if_pos h

theorem beginOperation_of_wide {s : State} (hw : s.w ≠ 0) (h : wmax s < s.w.toNat) :
    beginOperation s = .next (raiseFault .wmax (encode .beginLoad) s) := by
  rw [beginOperation, if_neg hw, if_pos h]

theorem beginOperation_of_height_zero {s : State} (hw : s.w ≠ 0) (hle : s.w.toNat ≤ wmax s)
    (h : s.h = 0) : beginOperation s = .next (raiseFault .dim (encode .beginLoad) s) := by
  rw [beginOperation, if_neg hw, if_neg (Nat.not_lt.2 hle), if_pos h]

theorem beginOperation_of_dims {s : State} (hw : s.w ≠ 0) (hle : s.w.toNat ≤ wmax s)
    (hh : s.h ≠ 0) : beginOperation s = .next { s with loadcnt := 0, mode := .loading } := by
  rw [beginOperation, if_neg hw, if_neg (Nat.not_lt.2 hle), if_neg hh]

/-- Settles O19: in mode IDLE by the checks of R93 in their order, then by the other modes. -/
theorem beginRule : Obligations.BeginRule := by
  refine ⟨fun s hm => ?_, fun s hm => exec_idleOnly_of_loading_or_done rfl rfl hm,
    fun s hm => exec_of_fault hm rfl⟩
  have hexec : exec .beginLoad s = beginOperation s := exec_of_ok rfl (by rw [hm]; rfl)
  rw [hexec]
  exact ⟨beginOperation_of_width_zero, beginOperation_of_wide, beginOperation_of_height_zero,
    beginOperation_of_dims⟩

/-! ## PUSH -/

theorem DimsOk.w_ne_zero {s : State} (hs : DimsOk s) : s.w ≠ 0 := by
  have hw := hs.w_pos
  intro h
  simp [h] at hw

theorem DimsOk.loadCol_lt {s : State} (hs : DimsOk s) : loadCol s < wmax s :=
  (Nat.mod_lt _ hs.w_pos).trans_le hs.w_le

section
variable {s : State} (hm : s.mode = .loading) (p : Bit)
include hm

theorem exec_push_of_loading : exec (.push p) s = pushOperation p s :=
  exec_of_ok rfl (by rw [hm]; rfl)

theorem exec_push_of_full (hfull : s.loadcnt.toNat = pixelCount s) :
    exec (.push p) s = .next (raiseFault .overrun (encode (.push p)) s) := by
  rw [exec_push_of_loading hm, pushOperation, if_pos hfull]

/-- A pixel of a row below 120 is stored and counted (R94). -/
theorem exec_push_stores (hs : DimsOk s) (hroom : s.loadcnt.toNat < pixelCount s)
    (hrow : loadRow s < 120) :
    exec (.push p) s =
      .next (countPixel (canvasWrite (loadRow s) (loadCol s) (p ^^^ invBit s) s)) := by
  have hin : inCanvas s (loadRow s) (loadCol s) = true := by simp [inCanvas, hrow, hs.loadCol_lt]
  rw [exec_push_of_loading hm, pushOperation, if_neg hroom.ne, if_neg hs.w_ne_zero, if_pos hrow,
    if_pos hin]

/-- A pixel of a row at or beyond 120 is counted only (R94, R96). -/
theorem exec_push_counts (hs : DimsOk s) (hroom : s.loadcnt.toNat < pixelCount s)
    (hrow : 120 ≤ loadRow s) : exec (.push p) s = .next (countPixel s) := by
  rw [exec_push_of_loading hm, pushOperation, if_neg hroom.ne, if_neg hs.w_ne_zero,
    if_neg (Nat.not_lt.2 hrow)]

end

theorem exec_push_of_idle_or_done {s : State} (hm : s.mode = .idle ∨ s.mode = .done) (p : Bit) :
    exec (.push p) s = .next (raiseFault .seq (encode (.push p)) s) := by
  apply exec_of_seq rfl
  obtain hm | hm := hm <;> rw [hm] <;> rfl

/-- Settles O20: in mode LOADING by the load pointer, then the other modes and the illegal words. -/
theorem pushRule : Obligations.PushRule := by
  refine ⟨fun s p hm hs => ⟨exec_push_of_full hm p, exec_push_stores hm p hs,
      exec_push_counts hm p hs⟩, fun s p hm => exec_push_of_idle_or_done hm p,
    fun s p hm => exec_of_fault hm rfl, fun cmd hop hbits => ?_⟩
  have hd : decode cmd = .error .pixelBitsNotZero :=
    (decode_of_op_push hop).trans (decodePush_of_highBits_ne hbits)
  exact ⟨hd, raisesIllcmd_of_decode_error hd⟩

/-- Settles O49, by what `PUSH` can do: nothing, a fault, a pixel stored, a pixel only counted. -/
theorem pushFrame : Obligations.PushFrame := by
  intro p s t h
  obtain rfl | ⟨hf, c, rfl⟩ | ⟨-, hm, -, -, ⟨hrow, hcol, rfl⟩ | ⟨-, rfl⟩⟩ := exec_next h
  · exact ⟨fun _ _ _ _ => rfl, fun _ _ => rfl, fun _ => rfl, fun ht hs => absurd ht hs⟩
  · refine ⟨fun _ _ _ _ => rfl, fun _ _ => rfl, fun hnofault => ?_, fun _ _ => rfl⟩
    obtain hne | hfault := hnofault
    · exact absurd rfl hne
    · simp [faultable, hfault] at hf
  · refine ⟨fun row col hcol' hne => ?_, fun _ _ => rfl, fun _ => rfl, fun ht => ?_⟩
    · have hmax := wmax_le s
      refine (canvasRead_canvasWrite s _ _ row col _ (by omega) hcol').trans (if_neg ?_)
      rintro ⟨rfl, rfl⟩
      exact hne ⟨rfl, rfl, hrow⟩
    · simp [hm] at ht
  · refine ⟨fun _ _ _ _ => rfl, fun _ _ => rfl, fun _ => rfl, fun ht => ?_⟩
    simp [hm] at ht

end Sys2Proof.Machine
end

section
/-! PROOFS, family 41_canvas_load: the canvas after a sequence of pushed pixels (R95), and the
cells the engine reads (R97). -/

namespace Sys2Proof.Machine

/-! ## The place of a pixel in the load order (R95) -/

/-- Row and column, back from the number of a place in row-major order. -/
theorem rowMajor_div_mod {w col : Nat} (row : Nat) (hcol : col < w) :
    (row * w + col) / w = row ∧ (row * w + col) % w = col :=
  ⟨Nat.div_eq_of_lt_le (Nat.le_add_right _ _) (by rw [Nat.succ_mul]; omega),
    Nat.mul_add_mod_of_lt hcol⟩

theorem pixel_lt_pixelCount {s : State} {row col : Nat} (hrow : row < s.h.toNat)
    (hcol : col < s.w.toNat) : row * s.w.toNat + col < pixelCount s := by
  have hle := Nat.mul_le_mul_right s.w.toNat hrow
  rw [Nat.succ_mul] at hle
  rw [pixelCount, Nat.mul_comm s.w.toNat]
  omega

/-! ## The cells the engine reads (R97) -/

/-- A complete load has written every cell below `Heff` and `W`. -/
theorem CellsWritten.cell {s : State} (h : CellsWritten s (pixelCount s)) {row col : Nat}
    (hrow : row < heff s) (hcol : col < s.w.toNat) :
    (s.canvas.read? (canvasKey row col)).isSome := by
  obtain ⟨hheight, h120⟩ := lt_min_iff.1 hrow
  obtain ⟨hdiv, hmod⟩ := rowMajor_div_mod row hcol
  have hcell := h _ (pixel_lt_pixelCount hheight hcol)
  rw [hdiv, hmod] at hcell
  exact hcell h120

/-- Settles O54: in each of the three modes the invariant says the whole load has been written. -/
theorem noCellReadBeforeWritten : Obligations.NoCellReadBeforeWritten := by
  intro s hs hmode row col hrow hcol
  have hwritten : CellsWritten s (pixelCount s) := by
    obtain ⟨hm, hfull⟩ | hm | hm := hmode
    · have hload := ((jobInv_loading hm).1 hs.job).written
      rwa [hfull] at hload
    · have hbusy := (jobInv_busy hm).1 hs.job
      exact hbusy.loaded ▸ hbusy.written
    · have hdone := (jobInv_done hm).1 hs.job
      exact hdone.loaded ▸ hdone.written
  exact hwritten.cell hrow hcol

/-! ## A sequence of pixels -/

/-- The state with the canvas `m` and `n` pixels counted, otherwise `s`. -/
def loadState (s : State) (n : Nat) (m : Memory 1) : State :=
  { s with canvas := m, loadcnt := BitVec.ofNat 32 n }

/-- What the canvas `m` holds when the pixels `ps` of an open load of `s` have been pushed (R95). -/
structure Loaded (s : State) (ps : List Bit) (m : Memory 1) : Prop where
  stored : ∀ n p, ps[n]? = some p → n / s.w.toNat < 120 →
    m.read? (canvasKey (n / s.w.toNat) (n % s.w.toNat)) = some (p ^^^ invBit s)
  untouched : ∀ row col, col < wmax s →
    (∀ n, n < ps.length → n / s.w.toNat < 120 → ¬ (row = n / s.w.toNat ∧ col = n % s.w.toNat)) →
    m.read? (canvasKey row col) = s.canvas.read? (canvasKey row col)

theorem nextWith_of_eq {r : Result} {t : State} {p : State → Prop} (h : r = .next t) (hp : p t) :
    nextWith r p := by rw [h]; exact hp

theorem pushAll_concat {ps : List Bit} {s t : State} (h : pushAll ps s = .next t) (p : Bit) :
    pushAll (ps ++ [p]) s = exec (.push p) t := by
  induction ps generalizing s with
  | nil =>
    cases h
    simp only [List.nil_append, pushAll]
    cases exec (.push p) t <;> rfl
  | cons q qs ih =>
    rw [List.cons_append, pushAll]
    rw [pushAll] at h
    split at h
    · exact ih h
    · cases h
    · cases h

theorem countPixel_loadState (s : State) (n : Nat) (m : Memory 1) :
    countPixel (loadState s n m) = loadState s (n + 1) m := by
  simp only [countPixel, loadState, BitVec.ofNat_add]
  rfl

theorem loadState_loadcnt_toNat {s : State} {n : Nat} (hn : n ≤ pixelCount s) (m : Memory 1) :
    (loadState s n m).loadcnt.toNat = n := by
  have := pixelCount_lt s
  exact Nat.mod_eq_of_lt (by omega)

theorem loaded_nil (s : State) : Loaded s [] s.canvas where
  stored := fun n p h => by simp at h
  untouched := fun _ _ _ _ => rfl

theorem pixel_of_concat {ps : List Bit} {p q : Bit} {n : Nat} (h : (ps ++ [p])[n]? = some q) :
    ps[n]? = some q ∧ n < ps.length ∨ n = ps.length ∧ q = p := by
  obtain hlt | rfl | hgt := Nat.lt_trichotomy n ps.length
  · rw [List.getElem?_append_left hlt] at h
    exact .inl ⟨h, hlt⟩
  · rw [List.getElem?_concat_length] at h
    exact .inr ⟨rfl, (Option.some.inj h).symm⟩
  · rw [List.getElem?_eq_none (by simpa using hgt)] at h
    cases h

/-- A column of the load order is below the column bound of the keys. -/
theorem DimsOk.pixel_col_lt {s : State} (hs : DimsOk s) (n : Nat) : n % s.w.toNat < 65536 :=
  (Nat.mod_lt n hs.w_pos).trans s.w.isLt

section
variable {s : State} {ps : List Bit} {m : Memory 1} (h : Loaded s ps m) (p : Bit)
include h

theorem Loaded.stores (hs : DimsOk s) (hrow : ps.length / s.w.toNat < 120) :
    Loaded s (ps ++ [p])
      (m.write (canvasKey (ps.length / s.w.toNat) (ps.length % s.w.toNat)) (p ^^^ invBit s)) where
  stored n q hq hn := by
    obtain ⟨hold, hlt⟩ | ⟨rfl, rfl⟩ := pixel_of_concat hq
    · rw [Memory.read?_write_other, h.stored n q hold hn]
      rw [Ne, canvasKey_inj (hs.pixel_col_lt n) (hs.pixel_col_lt _)]
      rintro ⟨hdiv, hmod⟩
      exact hlt.ne (Nat.ext_div_mod hdiv hmod)
    · exact Memory.read?_write_same _ _ _
  untouched row col hcol hne := by
    have hmax := wmax_le s
    rw [Memory.read?_write_other, h.untouched row col hcol fun n hn => hne n (by simp; omega)]
    rw [Ne, canvasKey_inj (by omega) (hs.pixel_col_lt _)]
    exact hne ps.length (by simp) hrow

theorem Loaded.counts (hrow : 120 ≤ ps.length / s.w.toNat) : Loaded s (ps ++ [p]) m where
  stored n q hq hn := by
    obtain ⟨hold, -⟩ | ⟨rfl, -⟩ := pixel_of_concat hq
    · exact h.stored n q hold hn
    · exact absurd hn (Nat.not_lt.2 hrow)
  untouched row col hcol hne :=
    h.untouched row col hcol fun n hn => hne n (by simp; omega)

end

/-- One more pixel, its row below 120 or not (R94, R96). -/
theorem exec_push_loaded {s : State} {ps : List Bit} {m : Memory 1} (hm : s.mode = .loading)
    (hs : DimsOk s) (h : Loaded s ps m) (hroom : ps.length < pixelCount s) (p : Bit) :
    ∃ m', exec (.push p) (loadState s ps.length m) = .next (loadState s (ps.length + 1) m') ∧
      Loaded s (ps ++ [p]) m' := by
  have hmode : (loadState s ps.length m).mode = .loading := hm
  have hdims : DimsOk (loadState s ps.length m) := hs.of_eq rfl rfl rfl
  have hcount : (loadState s ps.length m).loadcnt.toNat = ps.length :=
    loadState_loadcnt_toNat hroom.le m
  have hlt : (loadState s ps.length m).loadcnt.toNat < pixelCount (loadState s ps.length m) :=
    hcount.symm ▸ hroom
  have hrow : loadRow (loadState s ps.length m) = ps.length / s.w.toNat := by
    rw [loadRow, hcount]; rfl
  have hcol : loadCol (loadState s ps.length m) = ps.length % s.w.toNat := by
    rw [loadCol, hcount]; rfl
  by_cases h120 : ps.length / s.w.toNat < 120
  · refine ⟨_, ?_, h.stores p hs h120⟩
    rw [exec_push_stores hmode p hdims hlt (hrow.symm ▸ h120), hrow, hcol, ← countPixel_loadState]
    rfl
  · refine ⟨m, ?_, h.counts p (Nat.not_lt.1 h120)⟩
    rw [exec_push_counts hmode p hdims hlt (hrow.symm ▸ Nat.not_lt.1 h120), countPixel_loadState]

/-- The pixels of an open load, one after another (R95). -/
theorem pushAll_loaded {s : State} (hm : s.mode = .loading) (hs : DimsOk s) (hzero : s.loadcnt = 0)
    (ps : List Bit) (hlen : ps.length ≤ pixelCount s) :
    ∃ m, pushAll ps s = .next (loadState s ps.length m) ∧ Loaded s ps m := by
  induction ps using List.reverseRecOn with
  | nil =>
    have hstart : loadState s 0 s.canvas = s := by
      have hfield : s.loadcnt = BitVec.ofNat 32 0 := hzero
      rw [loadState, ← hfield]
    exact ⟨s.canvas, congrArg _ hstart.symm, loaded_nil s⟩
  | append_singleton ps p ih =>
    rw [List.length_append, List.length_singleton] at hlen ⊢
    obtain ⟨m, hpush, hload⟩ := ih (Nat.le_of_succ_le hlen)
    obtain ⟨m', hexec, hload'⟩ := exec_push_loaded hm hs hload hlen p
    exact ⟨m', (pushAll_concat hpush p).trans hexec, hload'⟩

/-- A stored pixel is what `CanvasRead` answers. -/
theorem canvasRead_loadState {s : State} {n row col : Nat} {m : Memory 1} {v : Bit}
    (h : m.read? (canvasKey row col) = some v) : canvasRead (loadState s n m) row col = v := by
  rw [canvasRead, loadState, h, Option.getD_some]

/-- A pixel below `Heff` and `W` is stored in the cell of its row and column. -/
theorem Loaded.canvasRead_cell {s : State} {ps : List Bit} {m : Memory 1} (h : Loaded s ps m)
    {row col : Nat} (hrow : row < heff s) (hcol : col < s.w.toNat) {p : Bit}
    (hp : ps[row * s.w.toNat + col]? = some p) :
    canvasRead (loadState s ps.length m) row col = p ^^^ invBit s := by
  obtain ⟨hdiv, hmod⟩ := rowMajor_div_mod row hcol
  have hcell := h.stored _ p hp (hdiv.symm ▸ (lt_min_iff.1 hrow).2)
  rw [hdiv, hmod] at hcell
  exact canvasRead_loadState hcell

/-- Settles O21, from what `PUSH` does to the canvas one pixel at a time. -/
theorem loadLaw : Obligations.LoadLaw := by
  intro s ps hm hs hzero hlen
  obtain ⟨m, hpush, hload⟩ := pushAll_loaded hm hs hzero ps hlen
  refine nextWith_of_eq hpush ⟨rfl, fun n p hp hn => canvasRead_loadState (hload.stored n p hp hn),
    hload.untouched, fun hfull row col hrow hcol => ?_⟩
  have hlt : row * s.w.toNat + col < ps.length :=
    hfull ▸ pixel_lt_pixelCount (lt_min_iff.1 hrow).1 hcol
  have hp := List.getElem?_eq_getElem hlt
  exact ⟨_, hp, hload.canvasRead_cell hrow hcol hp⟩

end Sys2Proof.Machine
end

section
/-! PROOFS, family 41_canvas_load: the engine's run from `ENCODE` to mode DONE (R99, R105, R106) and
the whole job (R80, R95, R107). -/

namespace Sys2Proof.Machine

/-! ## The scan (R22, R106) -/

/-- The engine is about to write the `n`-th byte of an encode of width `w`, and `rst` stays low. -/
structure Scanning (w : Half) (n : Nat) (s : State) : Prop where
  mode : s.mode = .busy
  rst : s.rst = []
  w_eq : s.w = w
  w_le : w.toNat ≤ wmax s
  x_lt : s.pos.x.toNat < w.toNat
  index : s.pos.b.val * (3 * w.toNat) + posIndex s.pos = n

/-- The next column does not wrap round (R22). -/
theorem toNat_succ_column {x w : Half} (h : x.toNat + 1 < w.toNat) :
    (x + 1).toNat = x.toNat + 1 := by
  bv_omega

section
variable {w : Half} {n : Nat} {s : State} (h : Scanning w n s)
include h

theorem Scanning.step : step s = .next (advance (engineWrite s)) := by
  have htick : tickRst s = s := by
    have hrst : s.rst.tail = s.rst := by rw [h.rst]; rfl
    rw [tickRst, hrst]
  have hlow : rstHigh s = false := by rw [rstHigh, h.rst]; rfl
  rw [step_of_busy h.mode hlow, htick, engineStep_of_lt (h.x_lt.trans_le h.w_le)]

theorem Scanning.posIndex_lt : posIndex s.pos < 3 * w.toNat := by
  have hlt := Machine.posIndex_lt (s := s) (h.w_eq.symm ▸ h.x_lt)
  rwa [h.w_eq] at hlt

theorem Scanning.engineWrite : Scanning w n (engineWrite s) :=
  ⟨h.mode, h.rst, h.w_eq, h.w_le, h.x_lt, h.index⟩

/-- The advance of `POS`: the next byte's turn, or DONE after the `15 × W` bytes (R106). -/
theorem Scanning.advance :
    Scanning w (n + 1) (advance s) ∨ n + 1 = 15 * w.toNat ∧ (Machine.advance s).mode = .done := by
  obtain ⟨hmode, hrst, rfl, hle, hx, hindex⟩ := h
  rw [posIndex] at hindex
  obtain ⟨hk, hnext⟩ | ⟨hk, hx', hnext⟩ | ⟨hk, hx', hb, hnext⟩ | ⟨hk, hx', hb, hnext⟩ :=
    advance_cases s <;> rw [hnext]
  · exact .inl ⟨hmode, hrst, rfl, hle, hx, by simp only [posIndex]; omega⟩
  · have hk2 : s.pos.k.val = 2 := congrArg Fin.val hk
    have hsucc := toNat_succ_column hx'
    refine .inl ⟨hmode, hrst, rfl, hle, hsucc.symm ▸ hx', ?_⟩
    simp only [posIndex, hsucc, Fin.val_zero]
    omega
  · have hk2 : s.pos.k.val = 2 := congrArg Fin.val hk
    refine .inl ⟨hmode, hrst, rfl, hle, Nat.zero_lt_of_lt hx, ?_⟩
    show (s.pos.b.val + 1) * (3 * s.w.toNat) + 0 = n + 1
    rw [Nat.succ_mul s.pos.b.val]
    omega
  · have hk2 : s.pos.k.val = 2 := congrArg Fin.val hk
    have hb4 : s.pos.b.val = 4 := congrArg Fin.val hb
    rw [hb4] at hindex
    exact .inr ⟨by omega, rfl⟩

end

/-- Engine steps one after another: what every engine step carries from one byte to the next holds
after any number of them, and the scan ends in mode DONE (R99, R106). -/
theorem runSteps_scanning {w : Half} {P : Nat → State → Prop}
    (hkeep : ∀ n s, Scanning w n s → P n s → P (n + 1) (advance (engineWrite s))) {k n : Nat}
    {s : State} (h : Scanning w n s) (hP : P n s) (hk : n + k ≤ 15 * w.toNat) :
    ∃ t, runSteps k s = .next t ∧ P (n + k) t ∧
      (Scanning w (n + k) t ∨ n + k = 15 * w.toNat ∧ t.mode = .done) := by
  induction k generalizing n s with
  | zero => exact ⟨s, rfl, hP, .inl h⟩
  | succ k ih =>
    have hrun : runSteps (k + 1) s = runSteps k (advance (engineWrite s)) := by
      rw [runSteps, h.step]
    have hP' := hkeep n s h hP
    have hk' : n + 1 + k = n + (k + 1) := by omega
    rw [hrun, ← hk']
    obtain hscan | ⟨hlast, hdone⟩ := h.engineWrite.advance
    · exact ih hscan hP' (by omega)
    · obtain rfl : k = 0 := by omega
      exact ⟨_, rfl, hP', .inr ⟨hlast, hdone⟩⟩

/-- No byte is left to write after `15 × W`. -/
theorem Scanning.lt {w : Half} {n : Nat} {s : State} (h : Scanning w n s) : n < 15 * w.toNat := by
  have hb := Nat.mul_le_mul_right (3 * w.toNat) (Nat.le_of_lt_succ s.pos.b.isLt)
  have hi := h.posIndex_lt
  have hindex := h.index
  omega

/-! ## The bytes written (R102, R107) -/

/-- The first `n` bytes of the encode of `s` stand in the band memory of `t`, which has the canvas
and the configuration of `s`; within a column `COL` is the word of the column (R21). -/
structure Encoded (s : State) (n : Nat) (t : State) : Prop where
  canvas : t.canvas = s.canvas
  epoch : t.epoch = s.epoch
  h : t.h = s.h
  cfg : t.cfg = s.cfg
  col : t.pos.k ≠ 0 → t.col = colWord s t.pos.b.val t.pos.x.toNat
  bytes : ∀ b i, i < 3 * s.w.toNat → b * (3 * s.w.toNat) + i < n →
    t.band.read? (bandKey b i) = some (encodedByte s b i)

/-- Past the first byte of a column the advance has stayed in the column. -/
theorem advance_pos_of_k_ne_zero {s : State} (h : (advance s).pos.k ≠ 0) :
    (advance s).pos.b = s.pos.b ∧ (advance s).pos.x = s.pos.x := by
  obtain ⟨_, hnext⟩ | ⟨-, -, hnext⟩ | ⟨-, -, _, hnext⟩ | ⟨-, -, -, hnext⟩ := advance_cases s <;>
    rw [hnext] at h ⊢
  · exact ⟨rfl, rfl⟩
  · exact absurd rfl h
  · exact absurd rfl h
  · exact absurd rfl h

section
variable {s t : State} {n : Nat} (h : Encoded s n t)
include h

theorem Encoded.nextCol_eq : nextCol t = colWord s t.pos.b.val t.pos.x.toNat := by
  by_cases hk : t.pos.k = 0
  · exact (if_pos hk).trans (colWord_eq_of h.canvas h.epoch h.h h.cfg _ _)
  · exact (if_neg hk).trans (h.col hk)

/-- The byte an engine step writes is `Encode[b][3 x + k]` (R102, R105). -/
theorem Encoded.byte_eq :
    byteOf (byteOrd t) (nextCol t) t.pos.k = encodedByte s t.pos.b.val (posIndex t.pos) := by
  have hord : byteOrd t = byteOrd s := by rw [byteOrd, h.cfg]; rfl
  rw [h.nextCol_eq, hord, posIndex, encodedByte_triple s _ _ t.pos.k.isLt]

theorem Encoded.engineWrite (hscan : Scanning s.w n t) : Encoded s (n + 1) (engineWrite t) where
  canvas := h.canvas
  epoch := h.epoch
  h := h.h
  cfg := h.cfg
  col _ := h.nextCol_eq
  bytes b i hi hlt := by
    rw [engineWrite_band, Memory.read?_write, h.byte_eq]
    split
    · next hkey =>
      obtain ⟨rfl, rfl⟩ := (bandKey_inj (index_lt hi) (index_lt hscan.posIndex_lt)).1 hkey
      rfl
    · next hkey =>
      obtain hlt | heq := Nat.lt_succ_iff_lt_or_eq.1 hlt
      · exact h.bytes b i hi hlt
      · obtain ⟨hdiv, hmod⟩ := rowMajor_div_mod b hi
        obtain ⟨hdiv', hmod'⟩ := rowMajor_div_mod t.pos.b.val hscan.posIndex_lt
        rw [heq, ← hscan.index] at hdiv hmod
        exact absurd (by rw [← hdiv, ← hmod, hdiv', hmod']) hkey

theorem Encoded.advance (hcol : t.col = colWord s t.pos.b.val t.pos.x.toNat) :
    Encoded s n (advance t) := by
  obtain ⟨-, hcfg, -, hh, -, -, -, -, hc, hcanvas, hband, -, -, -, -, hepoch⟩ := advance_frame t
  refine ⟨hcanvas.trans h.canvas, hepoch.trans h.epoch, hh.trans h.h, hcfg.trans h.cfg,
    fun hk => ?_, hband.symm ▸ h.bytes⟩
  obtain ⟨hb, hx⟩ := advance_pos_of_k_ne_zero hk
  rw [hc, hb, hx, hcol]

end

/-- From the start of the engine, `15 × W` steps write every byte of the encode (R99, R107). -/
theorem runSteps_encodes {s : State} (hm : s.mode = .busy) (hpos : s.pos = Pos.start)
    (hs : DimsOk s) (hrst : s.rst = []) :
    ∃ t, runSteps (15 * s.w.toNat) s = .next t ∧ t.mode = .done ∧
      ∀ b i, b < 5 → i < 3 * s.w.toNat → bandRead t b i = encodedByte s b i := by
  have hscan : Scanning s.w 0 s :=
    ⟨hm, hrst, rfl, hs.w_le, by rw [hpos]; exact hs.w_pos, by rw [hpos]; simp [Pos.start, posIndex]⟩
  have hstart : Encoded s 0 s :=
    ⟨rfl, rfl, rfl, rfl, fun hk => absurd (hpos ▸ rfl) hk,
      fun _ _ _ hlt => absurd hlt (Nat.not_lt_zero _)⟩
  have hkeep : ∀ n t, Scanning s.w n t → Encoded s n t →
      Encoded s (n + 1) (advance (engineWrite t)) :=
    fun n t hscan henc => (henc.engineWrite hscan).advance henc.nextCol_eq
  obtain ⟨t, hrun, henc, hend⟩ :=
    runSteps_scanning hkeep (k := 15 * s.w.toNat) hscan hstart (Nat.zero_add _).le
  rw [Nat.zero_add] at henc hend
  refine ⟨t, hrun, ?_, fun b i hb hi => ?_⟩
  · obtain hscan | ⟨-, hdone⟩ := hend
    · exact absurd hscan.lt (Nat.lt_irrefl _)
    · exact hdone
  · have hle := Nat.mul_le_mul_right (3 * s.w.toNat) (Nat.le_of_lt_succ hb)
    rw [bandRead, henc.bytes b i hi (by omega), Option.getD_some]

/-! ## A whole job -/

/-- `ENCODE` of a complete load starts the engine (R99). -/
theorem exec_encode_of_full {s : State} (hm : s.mode = .loading)
    (hfull : pixelCount s ≤ s.loadcnt.toNat) :
    exec .encode s = .next { s with pos := Pos.start, mode := .busy } := by
  have hexec : exec .encode s = encodeOperation s := exec_of_ok rfl (by rw [hm]; rfl)
  rw [hexec, encodeOperation, if_neg (Nat.not_lt.2 hfull)]

/-- The cell `ColWord` takes after a load: the pixel of its place, 0 at or beyond `Heff`. -/
theorem Loaded.bandCell {s : State} {ps : List Bit} {m : Memory 1} (h : Loaded s ps m) {b r x : Nat}
    (hx : x < s.w.toNat) :
    (24 * b + r < heff s → ∀ p, ps[(24 * b + r) * s.w.toNat + x]? = some p →
      bandCell (loadState s ps.length m) b r x = p ^^^ invBit s) ∧
    (heff s ≤ 24 * b + r → bandCell (loadState s ps.length m) b r x = 0) :=
  ⟨fun hrow _ hp => (if_pos hrow).trans (h.canvasRead_cell hrow hx hp),
    fun hrow => if_neg (Nat.not_lt.2 hrow)⟩

/-- Settles O37: the load, the start of the engine and its run, then R80 for the bytes it wrote. -/
theorem jobEncodesThePixels : Obligations.JobEncodesThePixels := by
  intro s ps hm hs hzero hrst hlen
  obtain ⟨m, hpush, hload⟩ := pushAll_loaded hm hs hzero ps hlen.le
  have hcount : (loadState s ps.length m).loadcnt.toNat = ps.length :=
    loadState_loadcnt_toNat hlen.le m
  have hencode := exec_encode_of_full (s := loadState s ps.length m) hm
    (hlen.symm.trans hcount.symm).le
  obtain ⟨t, hrun, hdone, hbands⟩ := runSteps_encodes
    (s := { loadState s ps.length m with pos := Pos.start, mode := .busy }) rfl rfl
    (hs.of_eq rfl rfl rfl) hrst
  refine nextWith_of_eq hpush (nextWith_of_eq hencode (nextWith_of_eq hrun
    ⟨hdone, fun b x r hb hx hr => ?_⟩))
  have hslot : byteSlot (byteOrd s) (rowBit (rowOrd s) r / 8) < 3 :=
    byteSlot_lt _ (Nat.div_lt_of_lt_mul (rowBit_lt _ hr))
  have hbit : (bandRead t b (3 * x + byteSlot (byteOrd s) (rowBit (rowOrd s) r / 8))).getLsbD
      (rowBit (rowOrd s) r % 8) = decide (bandCell (loadState s ps.length m) b r x = 1) := by
    rw [hbands b _ hb (show _ < 3 * s.w.toNat by omega)]
    exact packingOrders _ b x r hb hx hr
  obtain ⟨hpixel, hblank⟩ := hload.bandCell (b := b) (r := r) hx
  exact ⟨fun hrow p hp => hbit.trans (by rw [hpixel hrow p hp]),
    fun hrow => hbit.trans (by rw [hblank hrow]; rfl)⟩

end Sys2Proof.Machine
end

section
/-! PROOFS, family 42_band_encode: the transform (R100 to R104) and the laws of the packing orders (R110
to R115), by the one canvas cell that each bit of a column word and of a location is. -/

namespace Sys2Proof.Machine

/-! ## Column words and bytes (R100, R101) -/

/-- Settles O22. -/
theorem colWordRule : Obligations.ColWordRule := fun s b x _ _ _ hr =>
  colWord_getLsbD_rowBit s b x hr

/-- Settles O23, by the six cases of `ByteOf`. -/
theorem byteOfRule : Obligations.ByteOfRule := by
  intro byteord w k
  cases byteord <;> fin_cases k <;> rfl

/-! ## What a band reads (R103, R104) -/

/-- A cell is read only in a row below `Heff` (R17, R104). -/
theorem bandCell_congr {s t : State} {b r x : Nat} (hh : s.h = t.h)
    (hc : 24 * b + r < heff s → canvasRead s (24 * b + r) x = canvasRead t (24 * b + r) x) :
    bandCell s b r x = bandCell t b r x := by
  have heq : heff t = heff s := by rw [heff, heff, hh]
  rw [bandCell, bandCell, heq]
  split
  · next hrow => exact hc hrow
  · rfl

theorem bandCell_of_heff_le {s : State} {b r : Nat} (h : heff s ≤ 24 * b + r) (x : Nat) :
    bandCell s b r x = 0 := if_neg (Nat.not_lt.2 h)

/-- Settles O25: a band's bytes read its 24 rows; a row's band is its number by 24. -/
theorem bandRows : Obligations.BandRows := by
  refine ⟨fun s t b i _ _ hcfg hh _ hrows => ?_, fun row hrow => ?_⟩
  · refine encodedByte_congr b i (by rw [rowOrd, hcfg]; rfl) (by rw [byteOrd, hcfg]; rfl) fun r hr => ?_
    exact bandCell_congr hh fun _ => hrows _ (by omega) (by omega)
  · exact ⟨row / 24, by omega, fun b' _ _ _ => by omega⟩

/-! ## Columns of one cell value (R104, R110) -/

/-- Ink in all 24 rows of a column, or in none. -/
theorem colWord_of_uniform {s : State} {b x : Nat} {c : Bit}
    (h : ∀ r, r < 24 → bandCell s b r x = c) : colWord s b x = if c = 1 then 0xFFFFFF else 0 := by
  apply BitVec.eq_of_getLsbD_eq
  intro p hp
  rw [colWord_getLsbD, h _ (rowBit_lt _ hp)]
  split
  · next hc =>
    have hones : (0xFFFFFF : Col) = BitVec.allOnes 24 := by decide
    rw [hones, BitVec.getLsbD_allOnes, decide_eq_true hc, Bool.and_true]
  · next hc =>
    rw [decide_eq_false hc, Bool.and_false]
    exact BitVec.getLsbD_zero.symm

/-- Every byte of an all-ones or all-zeros column word, whatever `BYTEORD` is. -/
theorem byteOf_of_uniform (o : Bool) (c : Bit) (k : Fin 3) :
    byteOf o (if c = 1 then 0xFFFFFF else 0) k = if c = 1 then 0xFF else 0x00 := by
  revert o c k; decide

theorem encodedByte_of_uniform {s : State} {b i : Nat} {c : Bit}
    (h : ∀ r, r < 24 → bandCell s b r (i / 3) = c) :
    encodedByte s b i = if c = 1 then 0xFF else 0x00 := by
  rw [encodedByte, colWord_of_uniform h, byteOf_of_uniform]

/-- Settles O26: beyond `Heff` every cell of the band is 0. -/
theorem shortCanvas : Obligations.ShortCanvas := by
  refine ⟨fun s b i _ _ hband => ?_, fun s b x r _ _ hr hrow => ?_⟩
  · exact encodedByte_of_uniform fun r _ => bandCell_of_heff_le (Nat.le_add_right_of_le hband) _
  · have hcell : bandCell s b r x = 0 := bandCell_of_heff_le (min_le_of_left_le hrow) x
    exact (colWord_getLsbD_rowBit s b x hr).trans (by rw [hcell]; rfl)

/-- Settles O27. -/
theorem saturation : Obligations.Saturation := by
  intro s b x c _ _ hc
  refine ⟨colWord_of_uniform hc, fun k hk => encodedByte_of_uniform ?_⟩
  have hcol : (3 * x + k) / 3 = x := by omega
  rwa [hcol]

/-! ## A column of one ink cell (R111) -/

/-- The column word of a single ink cell has one bit set. -/
theorem colWord_of_single {s : State} {b x r : Nat} (hr : r < 24)
    (h : ∀ r', r' < 24 → bandCell s b r' x = if r' = r then 1 else 0) :
    colWord s b x = BitVec.twoPow 24 (rowBit (rowOrd s) r) := by
  apply BitVec.eq_of_getLsbD_eq
  intro p hp
  have hrow : rowBit (rowOrd s) p = r ↔ rowBit (rowOrd s) r = p := by
    rw [← rowBit_inj (rowOrd s) (rowBit_lt _ hp) hr, rowBit_rowBit _ hp, eq_comm]
  rw [colWord_getLsbD, h _ (rowBit_lt _ hp), BitVec.getLsbD_twoPow]
  by_cases heq : rowBit (rowOrd s) r = p
  · simp [hrow, heq, hp]
  · simp [hrow, heq]

/-- The bytes of a column word with bit `23 - r` set alone, most significant byte first (R101). -/
theorem byteOf_twoPow_toNat (r : Fin 24) (k : Fin 3) :
    (byteOf false (BitVec.twoPow 24 (23 - r.val)) k).toNat =
      if k.val = r.val / 8 then 2 ^ (7 - r.val % 8) else 0 := by
  revert r k; decide

/-- Settles O28: one bit of the column word, in the byte of the triple that holds it. -/
theorem rowToBitMapping : Obligations.RowToBitMapping := by
  intro s b x r _ _ hr hrow hbyte hcell
  have hword : colWord s b x = BitVec.twoPow 24 (23 - r) := by
    rw [colWord_of_single hr hcell, rowOrd, hrow]; rfl
  have hbit : 23 - r < 24 := by omega
  refine ⟨by simp [hword, hbit], fun k hk => ?_⟩
  rw [encodedByte_triple s b x hk, hword, byteOrd, hbyte]
  exact byteOf_twoPow_toNat ⟨r, hr⟩ ⟨k, hk⟩

/-! ## The four packing orders (R112) -/

/-- The state with the packing order put to `ROWORD = row`, `BYTEORD = byte` (R27, R28). -/
def withOrder (row byte : Bool) (s : State) : State :=
  { s with cfg := (s.cfg.extractLsb' 2 2 ++ BitVec.ofBool byte) ++ BitVec.ofBool row }

@[simp] theorem rowOrd_withOrder (row byte : Bool) (s : State) :
    rowOrd (withOrder row byte s) = row := by
  rw [rowOrd, withOrder, BitVec.getLsbD_append]
  simp

@[simp] theorem byteOrd_withOrder (row byte : Bool) (s : State) :
    byteOrd (withOrder row byte s) = byte := by
  rw [byteOrd, withOrder, BitVec.getLsbD_append, BitVec.getLsbD_append]
  simp

/-- The packing order does not choose the cells of a band. -/
@[simp] theorem bandCell_withOrder (row byte : Bool) (s : State) (b r x : Nat) :
    bandCell (withOrder row byte s) b r x = bandCell s b r x := bandCell_congr rfl fun _ => rfl

/-- `BYTEORD` has no part in the column word (R100). -/
theorem colWord_withOrder_byte (row byte byte' : Bool) (s : State) (b x : Nat) :
    colWord (withOrder row byte s) b x = colWord (withOrder row byte' s) b x :=
  colWord_congr b x (by simp) fun r _ => by simp

/-- `ROWORD` reverses the column word (R112). -/
theorem colWord_withOrder_reverse (byte byte' : Bool) (s : State) (b x : Nat) :
    colWord (withOrder true byte s) b x = (colWord (withOrder false byte' s) b x).reverse := by
  apply BitVec.eq_of_getLsbD_eq
  intro p hp
  have hrow : rowBit false (24 - 1 - p) = rowBit true p := by
    show 23 - (24 - 1 - p) = p
    omega
  have hp' : 24 - 1 - p < 24 := by omega
  simp only [BitVec.getLsbD_reverse, BitVec.getMsbD, colWord_getLsbD, rowOrd_withOrder,
    bandCell_withOrder, hrow, hp, hp', decide_true, Bool.true_and]

/-- `BYTEORD` exchanges the first and the third byte of a triple (R101). -/
theorem byteOf_true (w : Col) {k : Nat} (hk : k < 3) :
    byteOf true w ⟨k, hk⟩ = byteOf false w ⟨2 - k, by omega⟩ := by
  interval_cases k <;> rfl

/-- The bytes of a reversed word are the reversed bytes, in the other byte order. -/
theorem byteOf_reverse (o : Bool) (w : Col) (k : Fin 3) :
    byteOf o w.reverse k = (byteOf (!o) w k).reverse := by
  apply BitVec.eq_of_getLsbD_eq
  intro p hp
  have hslot := byteSlot_lt o k.isLt
  have hmirror : 24 - 1 - (8 * byteSlot o k.val + p) = 8 * byteSlot (!o) k.val + (8 - 1 - p) := by
    have hk := k.isLt
    cases o with
    | false =>
      show 24 - 1 - (8 * (2 - k.val) + p) = 8 * k.val + (8 - 1 - p)
      omega
    | true =>
      show 24 - 1 - (8 * k.val + p) = 8 * (2 - k.val) + (8 - 1 - p)
      omega
  have hbit : 8 * byteSlot o k.val + p < 24 := by omega
  have hp' : 8 - 1 - p < 8 := by omega
  simp only [BitVec.getLsbD_reverse, BitVec.getMsbD, byteOf_getLsbD_byteSlot, hmirror, hp, hp', hbit,
    decide_true, Bool.true_and]

/-- Settles O29: the words are reversed, and so are their bytes. -/
theorem packingRelations : Obligations.PackingRelations := by
  intro s b x _ _
  have hreverse := fun byte byte' => colWord_withOrder_reverse byte byte' s b x
  have hbyte : ∀ row byte k (hk : k < 3), encodedByte (withOrder row byte s) b (3 * x + k) =
      byteOf byte (colWord (withOrder row byte s) b x) ⟨k, hk⟩ := by
    intro row byte k hk
    rw [encodedByte_triple _ b x hk, byteOrd_withOrder]
  refine ⟨fun byte => hreverse byte byte, fun row k hk => ?_, fun k hk => ?_, fun k hk => ?_⟩
  · refine (hbyte row true k hk).trans (Eq.trans ?_ (hbyte row false (2 - k) (by omega)).symm)
    rw [byteOf_true, colWord_withOrder_byte row true false]
  · refine (hbyte true true k hk).trans (Eq.trans ?_ (congrArg _ (hbyte false false k hk).symm))
    rw [hreverse true false, byteOf_reverse, Bool.not_true]
  · refine (hbyte true false k hk).trans (Eq.trans ?_ (congrArg _ (hbyte false true k hk).symm))
    rw [hreverse false true, byteOf_reverse, Bool.not_false]

/-! ## The cell of each bit of a band (R80, R115) -/

/-- The relative row whose cell is bit `q` of location `i` of a band: R80 from the bit to the row. -/
def cellRow (rowOrder byteOrder : Bool) (i q : Nat) : Nat :=
  rowBit rowOrder (8 * byteSlot byteOrder (i % 3) + q)

theorem cellRow_index_lt (o : Bool) (i : Nat) {q : Nat} (hq : q < 8) :
    8 * byteSlot o (i % 3) + q < 24 := by
  have hslot := byteSlot_lt o (Nat.mod_lt i (by decide : 3 > 0))
  omega

theorem cellRow_lt (o o' : Bool) (i : Nat) {q : Nat} (hq : q < 8) : cellRow o o' i q < 24 :=
  rowBit_lt o (cellRow_index_lt o' i hq)

/-- Each bit of a location is the cell of one row of its column (R100 to R102). -/
theorem encodedByte_getLsbD (s : State) (b i : Nat) {q : Nat} (hq : q < 8) :
    (encodedByte s b i).getLsbD q =
      decide (bandCell s b (cellRow (rowOrd s) (byteOrd s) i q) (i / 3) = 1) := by
  rw [encodedByte, byteOf_getLsbD_byteSlot, colWord_getLsbD, decide_eq_true hq,
    decide_eq_true (cellRow_index_lt _ i hq), Bool.true_and, Bool.true_and, cellRow]

/-- The map from the cells of a band to its bits (R80), read from either end. -/
theorem cellRow_eq_iff (o o' : Bool) {i q r x : Nat} (hq : q < 8) (hr : r < 24) :
    cellRow o o' i q = r ∧ i / 3 = x ↔
      i = 3 * x + byteSlot o' (rowBit o r / 8) ∧ q = rowBit o r % 8 := by
  constructor
  · rintro ⟨rfl, rfl⟩
    have hmod : i % 3 < 3 := Nat.mod_lt i (by decide)
    have hdiv8 : (8 * byteSlot o' (i % 3) + q) / 8 = byteSlot o' (i % 3) := by omega
    rw [cellRow, rowBit_rowBit o (cellRow_index_lt o' i hq), hdiv8, byteSlot_byteSlot o' hmod]
    omega
  · rintro ⟨rfl, rfl⟩
    have hbyte : rowBit o r / 8 < 3 := Nat.div_lt_of_lt_mul (rowBit_lt o hr)
    have hslot := byteSlot_lt o' hbyte
    have hmod : (3 * x + byteSlot o' (rowBit o r / 8)) % 3 = byteSlot o' (rowBit o r / 8) := by omega
    rw [cellRow, hmod, byteSlot_byteSlot o' hbyte, Nat.div_add_mod, rowBit_rowBit o hr]
    omega

/-- A write to a cell below `Heff` changes the cell `ColWord` takes there, and no other. -/
theorem bandCell_canvasWrite {s : State} {b r x b' r' x' : Nat} (v : Bit) (hr : r < 24) (hr' : r' < 24)
    (hx : x < 65536) (hx' : x' < 65536) (hrow : 24 * b + r < heff s) :
    bandCell (canvasWrite (24 * b + r) x v s) b' r' x' =
      if b' = b ∧ r' = r ∧ x' = x then v else bandCell s b' r' x' := by
  have hread := canvasRead_canvasWrite s (24 * b + r) x (24 * b' + r') x' v hx hx'
  have hheff : heff (canvasWrite (24 * b + r) x v s) = heff s := rfl
  by_cases hsame : b' = b ∧ r' = r ∧ x' = x
  · obtain ⟨rfl, rfl, rfl⟩ := hsame
    rw [bandCell, hheff, if_pos hrow, hread, if_pos ⟨rfl, rfl⟩, if_pos ⟨rfl, rfl, rfl⟩]
  · rw [if_neg hsame]
    exact bandCell_congr rfl fun _ => hread.trans (if_neg (by omega))

/-- Settles O30: every bit of a band is one cell, and the write changes that cell only. -/
theorem oneCellOneBit : Obligations.OneCellOneBit := by
  refine ⟨fun s b x r v _ hx hr hrow => ?_, fun o o' w i q hi hq => ?_⟩
  · intro p j b' i q _ hi hq
    have hw := s.w.isLt
    have hplace : i = 3 * x + j ∧ q = p % 8 ↔ cellRow (rowOrd s) (byteOrd s) i q = r ∧ i / 3 = x :=
      (cellRow_eq_iff (rowOrd s) (byteOrd s) hq hr).symm
    have hcell := bandCell_canvasWrite (x := x) (x' := i / 3) (b' := b') v hr
      (cellRow_lt (rowOrd s) (byteOrd s) i hq) (by omega) (by omega) hrow
    refine (encodedByte_getLsbD _ b' i hq).trans ((congrArg (decide <| · = (1 : Bit)) hcell).trans ?_)
    simp only [encodedByte_getLsbD s b' i hq, hplace]
    split <;> rfl
  · intro bitOf locOf
    have hplace : ∀ r x, r < 24 → (cellRow o o' i q = r ∧ i / 3 = x ↔
        i = 3 * x + locOf r ∧ q = bitOf r % 8) := fun r x => cellRow_eq_iff o o' hq
    have hrow := cellRow_lt o o' i hq
    refine ⟨cellRow o o' i q, i / 3, ⟨hrow, by omega, (hplace _ _ hrow).1 ⟨rfl, rfl⟩⟩,
      fun r' x' hr' _ hloc hbit => ?_⟩
    obtain ⟨hr, hx⟩ := (hplace r' x' hr').2 ⟨hloc, hbit⟩
    exact ⟨hr.symm, hx.symm⟩

end Sys2Proof.Machine
end

section
/-! PROOFS, family 42_band_encode: `ENCODE`, one engine step in its four cases (R99, R105, R116), and that
no state of the invariant stops (R113, R133, R150). -/

namespace Sys2Proof.Machine

/-! ## ENCODE -/

theorem exec_encode_of_missing {s : State} (hm : s.mode = .loading)
    (hless : s.loadcnt.toNat < pixelCount s) :
    exec .encode s = .next (raiseFault .underrun (encode .encode) s) := by
  have hexec : exec .encode s = encodeOperation s := exec_of_ok rfl (by rw [hm]; rfl)
  rw [hexec, encodeOperation, if_pos hless]

/-- Settles O31: in mode LOADING by the count of pixels, then by the other modes. -/
theorem encodeStarts : Obligations.EncodeStarts := by
  refine ⟨fun s hm => ⟨exec_encode_of_missing hm, exec_encode_of_full hm⟩, fun s hm => ?_,
    fun s hm => exec_of_fault hm rfl⟩
  apply exec_of_seq (i := .encode) rfl
  obtain hm | hm := hm <;> rw [hm] <;> rfl

/-! ## One engine step -/

/-- An engine step whose column lies in the memories (R105). -/
theorem step_of_busy_of_lt {s : State} (hm : s.mode = .busy) (hr : rstHigh s = false)
    (hx : s.pos.x.toNat < wmax s) :
    step s = .next (advance (engineWrite (tickRst s))) :=
  (step_of_busy hm hr).trans (engineStep_of_lt hx)

section
variable (s : State)

theorem advance_of_byte (hk : s.pos.k.val + 1 < 3) :
    advance s = { s with pos := { s.pos with k := ⟨s.pos.k.val + 1, hk⟩ } } := dif_pos hk

theorem advance_of_column (hk : s.pos.k = 2) (hx : s.pos.x.toNat + 1 < s.w.toNat) :
    advance s = { s with pos := { s.pos with x := s.pos.x + 1, k := 0 } } := by
  simp [advance, hk, hx]

theorem advance_of_band (hk : s.pos.k = 2) (hx : s.w.toNat ≤ s.pos.x.toNat + 1)
    (hb : s.pos.b.val + 1 < 5) :
    advance s = { s with
      bandw := s.bandw.set s.pos.b s.w, bandrdy := setBandRdy s.pos.b s.bandrdy,
      pos := { b := ⟨s.pos.b.val + 1, hb⟩, x := 0, k := 0 } } := by
  simp [advance, hk, Nat.not_lt.2 hx, finishBand, hb]

theorem advance_of_end (hk : s.pos.k = 2) (hx : s.w.toNat ≤ s.pos.x.toNat + 1) (hb : s.pos.b = 4) :
    advance s = { s with
      bandw := s.bandw.set s.pos.b s.w, bandrdy := setBandRdy s.pos.b s.bandrdy,
      pos := Pos.start, mode := .done } := by
  simp [advance, hk, Nat.not_lt.2 hx, finishBand, hb]

end

/-- Settles O32: the byte is written, and `POS` advances by `k`, then by `x`, then by `b`. -/
theorem engineStepRule : Obligations.EngineStepRule := by
  refine ⟨fun s hm hr hs hx => ?_, fun s hm hr => by simp [step, hm, hr]⟩
  have hstep := step_of_busy_of_lt hm hr (hx.trans_le hs.w_le)
  let written := engineWrite (tickRst s)
  intro c m
  refine ⟨fun h => ?_, fun hk hlt => ?_, fun hk hlast hb => ?_, fun hk hlast hb => ?_⟩
  · exact hstep.trans (congrArg _ (advance_of_byte written (Nat.succ_lt_succ h)))
  · exact hstep.trans (congrArg _ (advance_of_column written hk (Nat.add_lt_of_lt_sub hlt)))
  · exact hstep.trans (congrArg _ (advance_of_band written hk (Nat.le_add_of_sub_le hlast.ge)
      (Nat.succ_lt_succ hb)))
  · exact hstep.trans (congrArg _ (advance_of_end written hk (Nat.le_add_of_sub_le hlast.ge) hb))

/-- Settles O50: what the byte's write and the advance of `POS` leave alone. -/
theorem engineStepFrame : Obligations.EngineStepFrame := by
  intro s t hm hr hx h
  rw [step_of_busy hm hr] at h
  obtain ⟨-, rfl⟩ := engineStep_next h
  obtain ⟨herr, hcfg, hw, hh, how, hoh, herrcmd, hloadcnt, -, hcanvas, hband, hresp, hport, -, hparams,
    hepoch⟩ := advance_frame (engineWrite (tickRst s))
  have hindex : posIndex s.pos < 3 * s.w.toNat := posIndex_lt hx
  refine ⟨hcfg, hw, hh, how, hoh, herr, herrcmd, hloadcnt, hresp, hport, hparams, hepoch,
    fun row col => ?_, fun b j hj hne => ?_, hindex⟩
  · rw [canvasRead, hcanvas, hepoch]; rfl
  · rw [bandRead, hband, hepoch]
    exact (bandRead_bandWrite _ _ _ b j _ (index_lt hindex) hj).trans (if_neg hne)

/-! ## No stop in a state of the invariant -/

theorem illegalWord_answers (cmd : Word) (s : State) : ∃ t, illegalWord cmd s = .next t := by
  obtain ⟨-, h⟩ | ⟨-, h⟩ := illegalWord_next cmd s <;> exact ⟨_, h⟩

theorem calcOperation_answers (s : State) : ∃ t, calcOperation s = .next t := by
  unfold calcOperation; split_ifs <;> exact ⟨_, rfl⟩

theorem beginOperation_answers (s : State) : ∃ t, beginOperation s = .next t := by
  unfold beginOperation; split_ifs <;> exact ⟨_, rfl⟩

theorem encodeOperation_answers (s : State) : ∃ t, encodeOperation s = .next t := by
  unfold encodeOperation; split_ifs <;> exact ⟨_, rfl⟩

/-- `PUSH` stays in the canvas: `W ≥ 1` and the load pointer's column is below `W` (R113). -/
theorem LoadingInv.exec_push_answers {s : State} (hs : LoadingInv s) (hm : s.mode = .loading)
    (p : Bit) : ∃ t, exec (.push p) s = .next t := by
  obtain hroom | hfull := Nat.lt_or_eq_of_le hs.loadcnt_le
  · obtain hrow | hrow := Nat.lt_or_ge (loadRow s) 120
    · exact ⟨_, exec_push_stores hm p hs.dims hroom hrow⟩
    · exact ⟨_, exec_push_counts hm p hs.dims hroom hrow⟩
  · exact ⟨_, exec_push_of_full hm p hfull⟩

/-- `RDBAND` stays in the band memory: the index it reads is below `3 × W` (R117). -/
theorem DimsOk.rdbandOperation_answers {s : State} (hs : DimsOk s) (b : BitVec 3) (i : BitVec 18) :
    ∃ t, rdbandOperation b i s = .next t := by
  unfold rdbandOperation
  split
  · exact ⟨_, rfl⟩
  · next hrange =>
    obtain ⟨hb, hi⟩ := not_or.1 hrange
    have hw := hs.w_le
    have hin : inBand s b.toNat i.toNat = true := by
      simp only [inBand, Bool.and_eq_true, decide_eq_true_eq]
      omega
    exact ⟨_, if_pos hin⟩

/-- No command stops in a state of the invariant (R113). -/
theorem Inv.exec_answers {s : State} (hs : Inv s) (i : Instr) : ∃ t, exec i s = .next t := by
  obtain h | ⟨-, c, h⟩ | ⟨hw, hp, -⟩ := attempt_cases i (operationOf i) s
  · exact ⟨_, (exec_eq_attempt i s).trans h⟩
  · exact ⟨_, (exec_eq_attempt i s).trans h⟩
  have hexec := exec_of_ok hw hp
  cases i with
  | nop | wrreg | rdreg | srst => exact ⟨_, hexec⟩
  | calcDims => exact hexec ▸ calcOperation_answers s
  | beginLoad => exact hexec ▸ beginOperation_answers s
  | push p =>
    have hm := permission_only_ok hp
    exact ((jobInv_loading hm).1 hs.job).exec_push_answers hm p
  | encode => exact hexec ▸ encodeOperation_answers s
  | rdband b idx =>
    exact hexec ▸ ((jobInv_done (permission_only_ok hp)).1 hs.job).dims.rdbandOperation_answers b idx

/-- Settles O53, by the kinds of step: `rst`, an engine step, a wait, a command, an illegal word. -/
theorem invariantStatesNeverStop : Obligations.InvariantStatesNeverStop := by
  intro s hs
  by_cases hr : rstHigh s = true
  · exact ⟨_, if_pos hr⟩
  have hlow : rstHigh s = false := Bool.not_eq_true _ ▸ hr
  by_cases hm : s.mode = .busy
  · have hbusy := (jobInv_busy hm).1 hs.job
    exact ⟨_, step_of_busy_of_lt hm hlow (hbusy.x_lt.trans_le hbusy.dims.w_le)⟩
  have hstep : step s = portStep (tickRst s) := engineStepRule.2 s hm hlow
  rw [hstep, portStep]
  cases hport : (tickRst s).port with
  | nil => exact ⟨_, rfl⟩
  | cons cmd rest =>
    have haccept : Inv { tickRst s with port := rest } := hs.of_sameJob rfl rfl rfl rfl
    simp only [executeWord]
    cases decode cmd with
    | ok i => exact haccept.exec_answers i
    | error e => exact illegalWord_answers cmd _

end Sys2Proof.Machine
end

section
/-! PROOFS, family 42_band_encode: the run of the engine (R106), its net effect (R99, R107, R116), and
that the bytes it writes depend on the cells, the dimensions and the packing order only (R114). -/

namespace Sys2Proof.Machine

/-! ## The scan order (R106) -/

theorem scanning_start {s : State} (hm : s.mode = .busy) (hpos : s.pos = Pos.start) (hs : DimsOk s)
    (hrst : s.rst = []) : Scanning s.w 0 s :=
  ⟨hm, hrst, rfl, hs.w_le, by rw [hpos]; exact hs.w_pos, by rw [hpos]; simp [Pos.start, posIndex]⟩

section
variable {w : Half} {n : Nat} {s : State} (h : Scanning w n s)
include h

/-- `POS` at the `n`-th byte: the band, and the index in the band. -/
theorem Scanning.pos_eq :
    s.pos.b.val = n / (3 * w.toNat) ∧ posIndex s.pos = n % (3 * w.toNat) := by
  obtain ⟨hdiv, hmod⟩ := rowMajor_div_mod s.pos.b.val h.posIndex_lt
  rw [h.index] at hdiv hmod
  exact ⟨hdiv.symm, hmod.symm⟩

/-- The column and the byte of the column at the `n`-th byte (R106). -/
theorem Scanning.column_eq :
    s.pos.x.toNat = n % (3 * w.toNat) / 3 ∧ s.pos.k.val = n % 3 := by
  obtain ⟨-, hindex⟩ := h.pos_eq
  have hk := s.pos.k.isLt
  have hmod : n % (3 * w.toNat) % 3 = n % 3 := Nat.mod_mul_right_mod n 3 _
  rw [posIndex] at hindex
  omega

/-- The only band location a step of the scan writes. -/
theorem Scanning.step_band : ∃ u, Machine.step s = .next u ∧ ∃ v,
    u.band = s.band.write (bandKey (n / (3 * w.toNat)) (n % (3 * w.toNat))) v := by
  obtain ⟨hb, hi⟩ := h.pos_eq
  obtain ⟨-, -, -, -, -, -, -, -, -, -, hband, -⟩ := advance_frame (Machine.engineWrite s)
  rw [← hb, ← hi]
  exact ⟨_, h.step, _, hband⟩

end

/-- Settles O34: `POS` is the place of the number of bytes written. -/
theorem engineScanOrder : Obligations.EngineScanOrder := by
  intro s hm hpos hs hrst
  have hstart := scanning_start hm hpos hs hrst
  have hrun : ∀ k, k ≤ 15 * s.w.toNat → ∃ t, runSteps k s = .next t ∧
      (Scanning s.w k t ∨ k = 15 * s.w.toNat ∧ t.mode = .done) := fun k hk => by
    obtain ⟨t, hrun, -, hend⟩ := runSteps_scanning (P := fun _ _ => True) (k := k)
      (fun _ _ _ _ => trivial) hstart trivial (by omega)
    exact ⟨t, hrun, by rwa [Nat.zero_add] at hend⟩
  refine ⟨fun j hj => ?_, ?_⟩
  · obtain ⟨t, hrun, hscan | ⟨rfl, -⟩⟩ := hrun j hj.le
    · obtain ⟨u, hstep, v, hband⟩ := hscan.step_band
      refine nextWith_of_eq hrun ⟨hscan.mode, hscan.pos_eq.1, hscan.column_eq.1, hscan.column_eq.2,
        nextWith_of_eq hstep ?_⟩
      rw [hband, Memory.read?_write_same]
      exact ⟨rfl, fun key hne => Memory.read?_write_other _ v hne⟩
    · exact absurd hj (Nat.lt_irrefl _)
  · obtain ⟨t, hrun, hscan | ⟨-, hdone⟩⟩ := hrun _ le_rfl
    · exact absurd hscan.lt (Nat.lt_irrefl _)
    · exact nextWith_of_eq hrun hdone

/-! ## The end of a band (R20, R23, R105) -/

/-- The byte at `POS` is the last of band `j`. -/
abbrev endsBand (s : State) (j : Nat) : Prop :=
  s.pos.k = 2 ∧ s.w.toNat ≤ s.pos.x.toNat + 1 ∧ j = s.pos.b.val

theorem advance_ends_or_not (s : State) :
    (s.pos.k = 2 ∧ s.w.toNat ≤ s.pos.x.toNat + 1) ∧
      (advance s).bandw = s.bandw.set s.pos.b s.w ∧
      (advance s).bandrdy = setBandRdy s.pos.b s.bandrdy ∨
    (∀ j, ¬ endsBand s j) ∧ (advance s).bandw = s.bandw ∧ (advance s).bandrdy = s.bandrdy := by
  obtain ⟨hk, h⟩ | ⟨-, hx, h⟩ | ⟨hk, hx, _, h⟩ | ⟨hk, hx, _, h⟩ := advance_cases s <;> rw [h]
  · refine .inr ⟨fun j hend => ?_, rfl, rfl⟩
    rw [hend.1] at hk
    exact absurd hk (by decide)
  · exact .inr ⟨fun j hend => absurd hend.2.1 (Nat.not_le.2 hx), rfl, rfl⟩
  · exact .inl ⟨⟨hk, hx⟩, rfl, rfl⟩
  · exact .inl ⟨⟨hk, hx⟩, rfl, rfl⟩

/-- The advance of `POS` writes the width register and the ready flag of a band it ends, no other. -/
theorem advance_band_registers (s : State) (j : Fin 5) :
    (advance s).bandw.get j = (if endsBand s j then s.w else s.bandw.get j) ∧
    (advance s).bandrdy.getLsbD j = (s.bandrdy.getLsbD j || decide (endsBand s j)) := by
  obtain ⟨⟨hk, hx⟩, hw, hr⟩ | ⟨hnot, hw, hr⟩ := advance_ends_or_not s
  · have hend : j = s.pos.b ↔ endsBand s j := by simp [endsBand, hk, hx, Fin.ext_iff]
    rw [hw, hr, BandWidths.get_set, setBandRdy_getLsbD]
    simp only [hend, and_self]
  · rw [hw, hr, if_neg (hnot j), decide_eq_false (hnot j), Bool.or_false]
    exact ⟨rfl, rfl⟩

/-- The scan ends band `j` with byte `(j + 1) × 3 W` of the encode (R106). -/
theorem Scanning.endsBand_iff {w : Half} {n : Nat} {s : State} (h : Scanning w n s) (j : Nat) :
    endsBand s j ↔ (j + 1) * (3 * w.toNat) = n + 1 := by
  obtain ⟨hb, hi⟩ := h.pos_eq
  have hlt := h.posIndex_lt
  have hx := h.x_lt
  have hlast : s.pos.k = 2 ∧ s.w.toNat ≤ s.pos.x.toNat + 1 ↔ posIndex s.pos = 3 * w.toNat - 1 := by
    have hk := s.pos.k.isLt
    rw [h.w_eq, posIndex, ← Fin.val_inj, Fin.val_two]
    omega
  rw [endsBand, ← and_assoc, hlast]
  constructor
  · rintro ⟨hlast, rfl⟩
    have hindex := h.index
    rw [Nat.succ_mul]
    omega
  · intro hn
    obtain ⟨hdiv, hmod⟩ := rowMajor_div_mod j (show 3 * w.toNat - 1 < 3 * w.toNat by omega)
    have hn' : j * (3 * w.toNat) + (3 * w.toNat - 1) = n := by
      rw [Nat.succ_mul] at hn
      omega
    rw [hn'] at hdiv hmod
    exact ⟨hi.trans hmod, hdiv.symm.trans hb.symm⟩

/-! ## What a run of the engine leaves (R99, R107, R116) -/

/-- `s` with the fields an engine step may write taken from `t` (R116). -/
def withEngine (s t : State) : State :=
  { s with
    band := t.band, bandw := t.bandw, bandrdy := t.bandrdy, col := t.col, pos := t.pos, mode := t.mode }

theorem advance_engineWrite_frame (s : State) :
    advance (engineWrite s) = withEngine s (advance (engineWrite s)) := by
  obtain ⟨_, h⟩ | ⟨-, -, h⟩ | ⟨-, -, _, h⟩ | ⟨-, -, -, h⟩ := advance_cases (engineWrite s) <;>
    rw [h] <;> rfl

/-- The first `n` bytes of the encode of `s` have been written, and nothing else has been but the
registers of the bands that are complete, `COL`, `POS` and `MODE`. -/
structure EngineRun (s : State) (n : Nat) (t : State) : Prop where
  encoded : Encoded s n t
  frame : t = withEngine s t
  widths : ∀ j : Fin 5,
    t.bandw.get j = if (j.val + 1) * (3 * s.w.toNat) ≤ n then s.w else s.bandw.get j
  ready : ∀ j : Fin 5, t.bandrdy.getLsbD j =
    (s.bandrdy.getLsbD j || decide ((j.val + 1) * (3 * s.w.toNat) ≤ n))
  beyond : ∀ b i, 3 * s.w.toNat ≤ i → i < 262144 →
    t.band.read? (bandKey b i) = s.band.read? (bandKey b i)
  ended : t.mode = .done → t.pos = Pos.start ∧ t.col = colWord s 4 (s.w.toNat - 1)

/-- Before the first byte nothing has been written. -/
theorem engineRun_start {s : State} (hm : s.mode = .busy) (hpos : s.pos = Pos.start) (hs : DimsOk s) :
    EngineRun s 0 s := by
  have hnone : ∀ j : Fin 5, ¬ (j.val + 1) * (3 * s.w.toNat) ≤ 0 := fun j =>
    Nat.not_le.2 (Nat.mul_pos j.val.succ_pos (Nat.mul_pos (by decide) hs.w_pos))
  exact
    { encoded := ⟨rfl, rfl, rfl, rfl, fun hk => absurd (hpos ▸ rfl) hk,
        fun _ _ _ hlt => absurd hlt (Nat.not_lt_zero _)⟩
      frame := rfl
      widths := fun j => (if_neg (hnone j)).symm
      ready := fun j => by rw [decide_eq_false (hnone j), Bool.or_false]
      beyond := fun _ _ _ _ => rfl
      ended := fun hdone => by simp [hm] at hdone }

/-- The advance enters mode DONE after the last byte of band 4 only. -/
theorem advance_done {s : State} (hm : s.mode = .busy) (h : (advance s).mode = .done) :
    (advance s).pos = Pos.start ∧ s.pos.b = 4 ∧ s.w.toNat ≤ s.pos.x.toNat + 1 := by
  obtain ⟨_, hnext⟩ | ⟨-, -, hnext⟩ | ⟨-, -, _, hnext⟩ | ⟨-, hx, hb, hnext⟩ := advance_cases s <;>
    rw [hnext] at h ⊢
  · simp [hm] at h
  · simp [hm] at h
  · simp [hm] at h
  · exact ⟨rfl, hb, hx⟩

section
variable {s t : State} {n : Nat} (h : EngineRun s n t) (hscan : Scanning s.w n t)
include h hscan

theorem EngineRun.next_widths (j : Fin 5) : (advance (engineWrite t)).bandw.get j =
    if (j.val + 1) * (3 * s.w.toNat) ≤ n + 1 then s.w else s.bandw.get j := by
  rw [(advance_band_registers _ j).1, if_congr (hscan.engineWrite.endsBand_iff j) rfl rfl,
    engineWrite_w, engineWrite_bandw, hscan.w_eq, h.widths, ← ite_or]
  exact if_congr (or_comm.trans Nat.le_succ_iff.symm) rfl rfl

theorem EngineRun.next_ready (j : Fin 5) : (advance (engineWrite t)).bandrdy.getLsbD j =
    (s.bandrdy.getLsbD j || decide ((j.val + 1) * (3 * s.w.toNat) ≤ n + 1)) := by
  rw [(advance_band_registers _ j).2, decide_eq_decide.2 (hscan.engineWrite.endsBand_iff j),
    engineWrite_bandrdy, h.ready, Bool.or_assoc, ← Bool.decide_or, decide_eq_decide.2 Nat.le_succ_iff]

theorem EngineRun.next_beyond (b i : Nat) (hi : 3 * s.w.toNat ≤ i) (hlt : i < 262144) :
    (advance (engineWrite t)).band.read? (bandKey b i) = s.band.read? (bandKey b i) := by
  obtain ⟨-, -, -, -, -, -, -, -, -, -, hband, -⟩ := advance_frame (engineWrite t)
  have hindex := hscan.posIndex_lt
  have hne : bandKey b i ≠ bandKey t.pos.b.val (posIndex t.pos) := fun hkey =>
    absurd ((bandKey_inj hlt (index_lt hindex)).1 hkey).2 (by omega)
  rw [hband, engineWrite_band, Memory.read?_write_other _ _ hne, h.beyond b i hi hlt]

theorem EngineRun.next_ended (hdone : (advance (engineWrite t)).mode = .done) :
    (advance (engineWrite t)).pos = Pos.start ∧
      (advance (engineWrite t)).col = colWord s 4 (s.w.toNat - 1) := by
  obtain ⟨hpos, hb, hx⟩ := advance_done hscan.engineWrite.mode hdone
  obtain ⟨-, -, -, -, -, -, -, -, hcol, -⟩ := advance_frame (engineWrite t)
  have hb4 : t.pos.b.val = 4 := congrArg Fin.val hb
  have hlast : t.pos.x.toNat = s.w.toNat - 1 := by
    have hlt := hscan.x_lt
    rw [engineWrite_w, engineWrite_pos, hscan.w_eq] at hx
    omega
  refine ⟨hpos, hcol.trans (h.encoded.nextCol_eq.trans ?_)⟩
  rw [hb4, hlast]

theorem EngineRun.next : EngineRun s (n + 1) (advance (engineWrite t)) where
  encoded := (h.encoded.engineWrite hscan).advance h.encoded.nextCol_eq
  frame := by
    rw [advance_engineWrite_frame, h.frame]; rfl
  widths := h.next_widths hscan
  ready := h.next_ready hscan
  beyond := h.next_beyond hscan
  ended := h.next_ended hscan

end

/-- From the start of the engine to mode DONE (R99). -/
theorem runSteps_engineRun {s : State} (hm : s.mode = .busy) (hpos : s.pos = Pos.start)
    (hs : DimsOk s) (hrst : s.rst = []) :
    ∃ t, runSteps (15 * s.w.toNat) s = .next t ∧ t.mode = .done ∧
      EngineRun s (15 * s.w.toNat) t := by
  obtain ⟨t, hrun, hend, hlast⟩ := runSteps_scanning (k := 15 * s.w.toNat)
    (fun _ _ hscan h => EngineRun.next h hscan) (scanning_start hm hpos hs hrst)
    (engineRun_start hm hpos hs) (Nat.zero_add _).le
  rw [Nat.zero_add] at hend hlast
  obtain hscan | ⟨-, hdone⟩ := hlast
  · exact absurd hscan.lt (Nat.lt_irrefl _)
  · exact ⟨t, hrun, hdone, hend⟩

theorem BandWidths.eq_of_get {r : BandWidths} {v : Half} (h : ∀ j, r.get j = v) :
    r = { b0 := v, b1 := v, b2 := v, b3 := v, b4 := v } := by
  obtain ⟨b0, b1, b2, b3, b4⟩ := r
  congr 1
  exacts [h 0, h 1, h 2, h 3, h 4]

/-- After `15 × W` bytes all five bands are complete (R99). -/
theorem EngineRun.complete {s t : State} (h : EngineRun s (15 * s.w.toNat) t) :
    t.bandw = { b0 := s.w, b1 := s.w, b2 := s.w, b3 := s.w, b4 := s.w } ∧ t.bandrdy = 0x1F := by
  have hall : ∀ j : Fin 5, (j.val + 1) * (3 * s.w.toNat) ≤ 15 * s.w.toNat := fun j => by
    have hle := Nat.mul_le_mul_right (3 * s.w.toNat) (Nat.succ_le_of_lt j.isLt)
    rw [Nat.succ_eq_add_one] at hle
    omega
  refine ⟨BandWidths.eq_of_get fun j => (h.widths j).trans (if_pos (hall j)),
    BitVec.eq_of_getLsbD_eq fun i hi => ?_⟩
  have hones : (0x1F : BitVec 5) = BitVec.allOnes 5 := by decide
  rw [h.ready ⟨i, hi⟩, decide_eq_true (hall ⟨i, hi⟩), Bool.or_true, hones, BitVec.getLsbD_allOnes,
    decide_eq_true hi]

/-- `ENCODE` of a complete load and the run it starts leave `Encode[b][i]` in every location (R107). -/
theorem encode_writes_bands {s : State} (hm : s.mode = .loading) (hs : DimsOk s)
    (hfull : pixelCount s ≤ s.loadcnt.toNat) (hrst : s.rst = []) :
    ∃ s1 t, exec .encode s = .next s1 ∧ runSteps (15 * s.w.toNat) s1 = .next t ∧
      ∀ b i, b < 5 → i < 3 * s.w.toNat → bandRead t b i = encodedByte s b i := by
  obtain ⟨t, hrun, -, hbands⟩ := runSteps_encodes
    (s := { s with pos := Pos.start, mode := .busy }) rfl rfl (hs.of_eq rfl rfl rfl) hrst
  exact ⟨_, t, exec_encode_of_full hm hfull, hrun,
    fun b i hb hi => (hbands b i hb hi).trans (encodedByte_eq_of rfl rfl rfl rfl b i)⟩

/-- Settles O35: `ENCODE` starts the engine, and `EngineRun` says what its `15 × W` steps leave. -/
theorem encodeNetEffect : Obligations.EncodeNetEffect := by
  intro s hm hs hfull hrst
  have hexec := exec_encode_of_full hm hfull.ge
  obtain ⟨t, hrun, hdone, hend⟩ := runSteps_engineRun
    (s := { s with pos := Pos.start, mode := .busy }) rfl rfl (hs.of_eq rfl rfl rfl) hrst
  obtain ⟨s1, t', hexec', hrun', hbands⟩ := encode_writes_bands hm hs hfull.ge hrst
  cases hexec.symm.trans hexec'
  cases hrun.symm.trans hrun'
  refine nextWith_of_eq hexec (nextWith_of_eq hrun
    ⟨hend.frame.trans ?_, hbands, fun b i _ hi hmax => ?_⟩)
  · obtain ⟨hbandw, hbandrdy⟩ := hend.complete
    obtain ⟨hpos, hcol⟩ := hend.ended hdone
    rw [withEngine, hbandw, hbandrdy, hpos, hcol, hdone]
    rfl
  · have hle := wmax_le s
    rw [bandRead, hend.beyond b i hi (by omega), hend.encoded.epoch]
    rfl

/-! ## Purity (R114) -/

theorem ords_of_cfg_eq {s t : State} (h : s.cfg.extractLsb' 0 2 = t.cfg.extractLsb' 0 2) :
    rowOrd s = rowOrd t ∧ byteOrd s = byteOrd t := by
  have hbit : ∀ i, i < 2 → s.cfg.getLsbD i = t.cfg.getLsbD i := fun i hi => by
    simpa [BitVec.getLsbD_extractLsb', hi] using congrArg (BitVec.getLsbD · i) h
  exact ⟨hbit 0 (by decide), hbit 1 (by decide)⟩

/-- Settles O36: both runs leave `Encode[b][i]`, which reads the cells below `Heff` and `W`, `H` and the
packing order only. -/
theorem encodePurity : Obligations.EncodePurity := by
  intro s s' hm hm' hs hs' hfull hfull' hrst hrst' hw hh hcfg hcells
  obtain ⟨s1, t, hexec, hrun, hbands⟩ := encode_writes_bands hm hs hfull.ge hrst
  obtain ⟨s1', t', hexec', hrun', hbands'⟩ := encode_writes_bands hm' hs' hfull'.ge hrst'
  obtain ⟨hrow, hbyte⟩ := ords_of_cfg_eq hcfg
  rw [← hw] at hrun' hbands'
  refine nextWith_of_eq hexec (nextWith_of_eq hexec' (nextWith_of_eq hrun (nextWith_of_eq hrun' ?_)))
  intro b i hb hi
  rw [hbands b i hb hi, hbands' b i hb hi]
  exact encodedByte_congr b i hrow hbyte fun r _ =>
    bandCell_congr hh fun hlt => hcells _ _ hlt (Nat.div_lt_of_lt_mul hi)

end Sys2Proof.Machine
end

section
/-! PROOFS, family 43_readout_and_system: `RDBAND` in every mode (R117, R118), `SRST` (R120), and their
illegal words. -/

namespace Sys2Proof

theorem decode_of_op_rdband {cmd : Word} (h : opField cmd = 0x07) :
    decode cmd = decodeRdband cmd := by
  simp [decode, h]

theorem decodeRdband_of_highBits_ne {cmd : Word} (h : cmd.extractLsb' 21 3 ≠ 0) :
    decodeRdband cmd = .error .bandBitsNotZero := if_neg h

theorem decode_of_op_srst {cmd : Word} (h : opField cmd = 0x08) : decode cmd = decodeN cmd .srst := by
  simp [decode, h]

end Sys2Proof

namespace Sys2Proof.Machine

/-! ## SRST -/

theorem exec_srst_of_ne_busy {s : State} (hm : s.mode ≠ .busy) :
    exec .srst s = .next (resetState s) := exec_of_ok rfl (alwaysRow_of_ne_busy hm)

theorem canvasRead_resetState (s : State) (row col : Nat) :
    canvasRead (resetState s) row col = Config.canvasContent (s.epoch + 1) row col := rfl

theorem bandRead_resetState (s : State) (b i : Nat) :
    bandRead (resetState s) b i = Config.bandContent (s.epoch + 1) b i := rfl

/-- Settles O7: the reset state, the wait in mode BUSY, the mode transitions of the other commands
(`exec_mode`), and the illegal words. -/
theorem srstRule : Obligations.SrstRule := by
  refine ⟨fun s hm => ?_, fun s hm hr => step_of_busy hm hr, fun i s t h hm => ?_,
    fun cmd hop hne => ?_⟩
  · have hexec := exec_srst_of_ne_busy hm
    exact ⟨hexec, nextWith_of_eq hexec ⟨canvasRead_resetState s, bandRead_resetState s⟩⟩
  · obtain hsame | ⟨-, hfault⟩ | ⟨-, hidle, -⟩ | ⟨-, hloading, -⟩ | ⟨hi, -⟩ := exec_mode h
    · exact .inl hsame
    · exact .inr (.inl hfault)
    · simp [hidle] at hm
    · simp [hloading] at hm
    · exact .inr (.inr hi)
  · have hd : decode cmd = .error .operandNotZero :=
      (decode_of_op_srst hop).trans (decodeN_of_operand_ne hne .srst)
    exact ⟨hd, raisesIllcmd_of_decode_error hd⟩

/-! ## RDBAND -/

theorem exec_rdband_of_idle_or_loading {s : State} (hm : s.mode = .idle ∨ s.mode = .loading)
    (b : BitVec 3) (i : BitVec 18) :
    exec (.rdband b i) s = .next (raiseFault .seq (encode (.rdband b i)) s) := by
  apply exec_of_seq rfl
  obtain hm | hm := hm <;> rw [hm] <;> rfl

section
variable {s : State} (hm : s.mode = .done) {b : BitVec 3} {i : BitVec 18}
include hm

theorem exec_rdband_of_done : exec (.rdband b i) s = rdbandOperation b i s :=
  exec_of_ok rfl (by rw [hm]; rfl)

theorem exec_rdband_out_of_range (h : 5 ≤ b.toNat ∨ 3 * s.w.toNat ≤ i.toNat) :
    exec (.rdband b i) s = .next (raiseFault .range (encode (.rdband b i)) s) := by
  rw [exec_rdband_of_done hm, rdbandOperation, if_pos h]

/-- A location in range lies in the band memory, because `W ≤ WMAX` (R42, R117). -/
theorem exec_rdband_in_range (hb : b.toNat < 5) (hi : i.toNat < 3 * s.w.toNat)
    (hw : s.w.toNat ≤ wmax s) :
    exec (.rdband b i) s =
      .next (respond ((bandRead s b.toNat i.toNat).setWidth 32) s) := by
  have hrange : ¬ (5 ≤ b.toNat ∨ 3 * s.w.toNat ≤ i.toNat) := by omega
  have hin : inBand s b.toNat i.toNat = true := by
    simp only [inBand, Bool.and_eq_true, decide_eq_true_eq]
    omega
  rw [exec_rdband_of_done hm, rdbandOperation, if_neg hrange, if_pos hin]

end

/-- Settles O38: in mode DONE by the range, then the other modes and the illegal words. -/
theorem rdbandRule : Obligations.RdbandRule := by
  refine ⟨fun s b i hm => ⟨exec_rdband_in_range hm, exec_rdband_out_of_range hm⟩,
    fun s b i hm => exec_rdband_of_idle_or_loading hm b i, fun s b i hm => exec_of_fault hm rfl,
    fun cmd hop hbits => ?_⟩
  have hd : decode cmd = .error .bandBitsNotZero :=
    (decode_of_op_rdband hop).trans (decodeRdband_of_highBits_ne hbits)
  exact ⟨hd, raisesIllcmd_of_decode_error hd⟩

/-! ## The read law (R118) -/

theorem HoldsEncoded.bandRead {s : State} {b i : Nat} (h : HoldsEncoded s b i) :
    bandRead s b i = encodedByte s b i := by
  rw [Machine.bandRead, h, Option.getD_some]

/-- Settles O39: in mode DONE the location holds the encoded byte (R39 item 6), and the whole load has
been written (`noCellReadBeforeWritten`). -/
theorem readLaw : Obligations.ReadLaw := by
  intro s b i hs hm hb hi
  have hdone := (jobInv_done hm).1 hs.job
  have hcolumn : i.toNat / 3 < s.w.toNat := Nat.div_lt_of_lt_mul hi
  refine ⟨?_, fun r _ hrow => noCellReadBeforeWritten s hs (.inr (.inr hm)) _ _ hrow hcolumn⟩
  rw [exec_rdband_in_range hm hb hi hdone.dims.w_le, (hdone.encoded _ _ hb hi).bandRead, respond]

end Sys2Proof.Machine
end

section
/-! PROOFS, family 60_exceptions: a step as the execution of the oldest presented word (R124, R146), the
permission table (R125), the priority of faults (R126), and mode FAULT (R130, R131, R133). -/

namespace Sys2Proof.Machine

/-! ## Executing a word (R124) -/

theorem executeWord_of_decode_ok {cmd : Word} {i : Instr} (h : decode cmd = .ok i) (s : State) :
    executeWord cmd s = exec i s := by
  rw [executeWord, h]

theorem executeWord_of_decode_error {cmd : Word} {e : IllegalWord} (h : decode cmd = .error e)
    (s : State) : executeWord cmd s = illegalWord cmd s := by
  rw [executeWord, h]

/-- With `rst` low, a mode that accepts words executes the oldest presented one (R124, R146). -/
theorem step_of_port {s : State} {cmd : Word} {rest : List Word} (hr : rstHigh s = false)
    (hm : s.mode ≠ .busy) (hport : s.port = cmd :: rest) :
    step s = executeWord cmd { s with port := rest, rst := s.rst.tail } := by
  rw [engineStepRule.2 s hm hr, portStep, tickRst_port, hport]
  rfl

/-- Settles O9. -/
theorem stepRunsDecodedWord : Obligations.StepRunsDecodedWord :=
  fun _ _ _ _ hr hm hport hd => (step_of_port hr hm hport).trans (executeWord_of_decode_ok hd _)

theorem faultable_of_ne {m : Mode} (hbusy : m ≠ .busy) (hfault : m ≠ .fault) : faultable m := by
  cases m <;> simp [faultable] at hbusy hfault ⊢

/-- Settles O10: in mode FAULT the illegal word is discarded, in the other modes it is a fault. -/
theorem stepIllegalWord : Obligations.StepIllegalWord := by
  intro s cmd rest e hr hm hport hd
  have hstep := (step_of_port hr hm hport).trans (executeWord_of_decode_error hd _)
  by_cases hf : s.mode = .fault
  · rw [if_pos hf, hstep]
    exact illegalWord_of_fault (s := { s with port := rest, rst := s.rst.tail }) hf cmd
  · have hfaultable : faultable s.mode := faultable_of_ne hm hf
    rw [if_neg hf, hstep]
    exact illegalWord_of_faultable (s := { s with port := rest, rst := s.rst.tail }) hfaultable cmd

/-! ## Mode FAULT (R130, R131) -/

/-- In mode FAULT a command other than `RDREG` and `SRST` does nothing: `NOP`, or its word is
discarded. -/
theorem exec_of_fault_of_ne {i : Instr} {s : State} (hm : s.mode = .fault)
    (hrdreg : ∀ r, i ≠ .rdreg r) (hsrst : i ≠ .srst) : exec i s = .next s := by
  cases i with
  | nop => exact nopRule.1 s (by simp [hm])
  | rdreg r => exact absurd rfl (hrdreg r)
  | srst => exact absurd rfl hsrst
  | wrreg | calcDims | beginLoad | push | encode | rdband => exact exec_of_fault hm rfl

/-- Settles O43, by what the word decodes to. -/
theorem faultModeAbsorbs : Obligations.FaultModeAbsorbs := by
  intro cmd s hm
  have hbusy : s.mode ≠ .busy := by simp [hm]
  refine ⟨fun r hd => ?_, fun hd => ?_, fun hrdreg hsrst => ?_⟩
  · exact (executeWord_of_decode_ok hd s).trans (rdregRule.1 s r hbusy)
  · exact (executeWord_of_decode_ok hd s).trans (exec_srst_of_ne_busy hbusy)
  · cases hd : decode cmd with
    | ok i =>
      rw [hd] at hsrst
      rw [executeWord_of_decode_ok hd]
      exact exec_of_fault_of_ne hm (fun r hi => hrdreg r (hi ▸ hd)) fun hi => hsrst (hi ▸ rfl)
    | error e => rw [executeWord_of_decode_error hd, illegalWord_of_fault hm]

/-! ## The permission table and its priorities (R125, R126) -/

/-- Settles O40, by the rows of the table and the modes each of them names. -/
theorem permissionTable : Obligations.PermissionTable := by
  refine ⟨fun i s hw => ⟨fun hi hm => ?_, fun hi hm => ?_, fun hi hm => ?_, fun _ hrdreg hsrst hm => ?_⟩,
    fun s hm hr => step_of_busy hm hr, fun cmd e hd => raisesIllcmd_of_decode_error hd⟩
  · have hrow : permission i = onlyInRow .idle := by
      obtain ⟨r, v, rfl⟩ | rfl | rfl := hi <;> rfl
    exact exec_idleOnly_of_loading_or_done hw hrow hm
  · obtain ⟨p, rfl⟩ | rfl := hi
    · exact exec_push_of_idle_or_done hm p
    · exact encodeStarts.2.1 s hm
  · obtain ⟨b, j, rfl⟩ := hi
    exact exec_rdband_of_idle_or_loading hm b j
  · exact exec_of_fault_of_ne hm hrdreg hsrst

/-- Settles O41: an illegal word before the mode, the mode before the operands, and the checks of
`BEGIN` in the order of R93. -/
theorem faultPriority : Obligations.FaultPriority := by
  refine ⟨fun s hm => ?_, fun s hm hw _ => ?_, fun s hm => ?_⟩
  · have hd : decode 0x05000002#32 = .error .pixelBitsNotZero := by decide
    exact (raisesIllcmd_of_decode_error hd s).1 (.inl hm)
  · have hd : decode 0x04000000#32 = .ok .beginLoad := by decide
    exact (executeWord_of_decode_ok hd s).trans ((beginRule.1 s hm).1 hw)
  · have hd : decode 0x071C0000#32 = .ok (.rdband 7 0) := by decide
    exact (executeWord_of_decode_ok hd s).trans (exec_rdband_of_idle_or_loading (.inl hm) 7 0)

/-! ## The engine (R133) -/

/-- Settles O47: the column lies in the memories (R39 item 5), so the step answers, and no engine step
writes `ERR`. -/
theorem engineRaisesNoFault : Obligations.EngineRaisesNoFault := by
  intro s hs hm hr
  have hbusy := (jobInv_busy hm).1 hs.job
  have hx : (tickRst s).pos.x.toNat < wmax (tickRst s) := hbusy.x_lt.trans_le hbusy.dims.w_le
  have hengine := engineStep_of_lt hx
  obtain ⟨herr, -⟩ := advance_frame (engineWrite (tickRst s))
  refine nextWith_of_eq ((step_of_busy hm hr).trans hengine) ⟨?_, ?_⟩
  · exact (engineStep_mode hengine).imp (·.trans hm) id
  · exact herr.trans (hs.err_none (by simp [hm]))

end Sys2Proof.Machine
end

section
/-! PROOFS, family 60_exceptions: what enters mode FAULT, with the cause of each code (R123), and that a
fault records the whole word and changes nothing else (R128, R129). -/

namespace Sys2Proof.Machine

/-! ## The cause of a fault (R123) -/

/-- What holds of a command and the state it runs in when it faults with a code (R123). No command
faults with `E_ILLCMD`: that code is an illegal word's. -/
def FaultCause (i : Instr) (s : State) : ErrCode → Prop
  | .illcmd => False
  | .seq => permission i s.mode = .seq
  | .width0 => i = .beginLoad ∧ s.mode = .idle ∧ s.w = 0
  | .wmax => s.mode = .idle ∧
      (i = .beginLoad ∧ wmax s < s.w.toNat ∨ i = .calcDims ∧ wmax s < calcWidth s)
  | .dim => s.mode = .idle ∧ (i = .beginLoad ∧ s.h = 0 ∨ i = .calcDims ∧ (s.ow = 0 ∨ s.oh = 0))
  | .overrun => (∃ p, i = .push p) ∧ s.mode = .loading ∧ s.loadcnt.toNat = pixelCount s
  | .underrun => i = .encode ∧ s.mode = .loading ∧ s.loadcnt.toNat < pixelCount s
  | .range => ∃ b idx, i = .rdband b idx ∧ s.mode = .done ∧
      (5 ≤ b.toNat ∨ 3 * s.w.toNat ≤ idx.toNat)

/-- The operation of a command in a mode that permits it enters mode FAULT by one of its checks. -/
theorem operation_enters_fault {i : Instr} {s t : State} (hp : permission i s.mode = .ok)
    (h : operationOf i s = .next t) (hs : s.mode ≠ .fault) (ht : t.mode = .fault) :
    ∃ c, t = raiseFault c (encode i) s ∧ FaultCause i s c := by
  cases i with
  | nop | rdreg r => cases h; exact absurd ht hs
  | wrreg r v => cases h; exact absurd ((writeReg_mode r v s).symm.trans ht) hs
  | srst => cases h; cases ht
  | calcDims =>
    have hm := permission_only_ok hp
    simp only [operationOf, calcOperation] at h
    split_ifs at h with hzero hwide <;> cases h
    · exact ⟨.dim, rfl, hm, .inr ⟨rfl, hzero⟩⟩
    · exact ⟨.wmax, rfl, hm, .inr ⟨rfl, hwide⟩⟩
    · exact absurd ht hs
  | beginLoad =>
    have hm := permission_only_ok hp
    simp only [operationOf, beginOperation] at h
    split_ifs at h with hw hwide hh <;> cases h
    · exact ⟨.width0, rfl, rfl, hm, hw⟩
    · exact ⟨.wmax, rfl, hm, .inl ⟨rfl, hwide⟩⟩
    · exact ⟨.dim, rfl, hm, .inl ⟨rfl, hh⟩⟩
    · cases ht
  | push p =>
    have hm := permission_only_ok hp
    simp only [operationOf, pushOperation] at h
    split_ifs at h with hfull hw hrow hin <;> cases h
    · exact ⟨.overrun, rfl, ⟨p, rfl⟩, hm, hfull⟩
    · exact absurd ht hs
    · exact absurd ht hs
  | encode =>
    have hm := permission_only_ok hp
    simp only [operationOf, encodeOperation] at h
    split_ifs at h with hless <;> cases h
    · exact ⟨.underrun, rfl, rfl, hm, hless⟩
    · cases ht
  | rdband b idx =>
    have hm := permission_only_ok hp
    simp only [operationOf, rdbandOperation] at h
    split_ifs at h with hrange hin <;> cases h
    · exact ⟨.range, rfl, b, idx, rfl, hm, hrange⟩
    · exact absurd ht hs

/-- A command enters mode FAULT by its mode (R124 step 4) or by a check of its operation (step 5). -/
theorem exec_enters_fault {i : Instr} {s t : State} (hw : i.wf = true) (h : exec i s = .next t)
    (hs : s.mode ≠ .fault) (ht : t.mode = .fault) :
    ∃ c, t = raiseFault c (encode i) s ∧ FaultCause i s c := by
  cases hp : permission i s.mode with
  | ok => exact operation_enters_fault hp ((exec_of_ok hw hp).symm.trans h) hs ht
  | seq =>
    rw [exec_of_seq hw hp] at h
    cases h
    exact ⟨.seq, rfl, hp⟩
  | wait | discard =>
    rw [exec_eq_attempt, attempt, if_pos hw, hp] at h
    cases h
    exact absurd ht hs

/-- A word enters mode FAULT because it is illegal, or by the command it spells. -/
theorem executeWord_enters_fault {cmd : Word} {s t : State} (h : executeWord cmd s = .next t)
    (hs : s.mode ≠ .fault) (ht : t.mode = .fault) :
    ∃ c, t = raiseFault c cmd s ∧
      (legal cmd = false ∧ c = .illcmd ∨ ∃ i, decode cmd = .ok i ∧ FaultCause i s c) := by
  cases hlegal : legal cmd with
  | true =>
    obtain ⟨i, hd⟩ := (decode_ok_iff_legal cmd).2 hlegal
    rw [executeWord_of_decode_ok hd] at h
    obtain ⟨c, rfl, hcause⟩ := exec_enters_fault (wf_of_decode hd) h hs ht
    rw [encode_of_decode hd]
    exact ⟨c, rfl, .inr ⟨i, hd, hcause⟩⟩
  | false =>
    rw [executeWord_of_illegal hlegal] at h
    obtain ⟨-, hnext⟩ | ⟨-, hnext⟩ := illegalWord_next cmd s <;> cases hnext.symm.trans h
    · exact absurd ht hs
    · exact ⟨.illcmd, rfl, .inl ⟨rfl, rfl⟩⟩

/-! ## Faults are precise (R128, R129) -/

theorem executeWord_of_busy {s : State} (hm : s.mode = .busy) (cmd : Word) :
    executeWord cmd s = .next s := by
  unfold executeWord
  cases decode cmd with
  | ok i => exact exec_of_busy hm
  | error e => simp [illegalWord, hm]

/-- A word that changes the mode to FAULT was accepted in IDLE, LOADING or DONE. -/
theorem executeWord_faultable {cmd : Word} {s t : State} (h : executeWord cmd s = .next t)
    (hs : s.mode ≠ .fault) (ht : t.mode = .fault) : faultable s.mode := by
  refine faultable_of_ne (fun hbusy => ?_) hs
  cases (executeWord_of_busy hbusy cmd).symm.trans h
  exact hs ht

/-- Settles O42: the entry by `executeWord_enters_fault`; in mode FAULT a word that leaves the mode does
nothing but respond (`faultModeAbsorbs`). -/
theorem faultsArePrecise : Obligations.FaultsArePrecise := by
  refine ⟨fun cmd s t h hs ht => ?_, fun cmd s t h hs ht => ?_⟩
  · obtain ⟨c, rfl, -⟩ := executeWord_enters_fault h hs ht
    exact ⟨executeWord_faultable h hs ht, c, rfl⟩
  · obtain ⟨hread, hreset, hrest⟩ := faultModeAbsorbs cmd s hs
    by_cases hrdreg : ∃ r, decode cmd = .ok (.rdreg r)
    · obtain ⟨r, hd⟩ := hrdreg
      cases (hread r hd).symm.trans h
      exact ⟨rfl, rfl⟩
    by_cases hsrst : decode cmd = .ok .srst
    · cases (hreset hsrst).symm.trans h
      cases ht
    · cases (hrest (not_exists.1 hrdreg) hsrst).symm.trans h
      exact ⟨rfl, rfl⟩

/-! ## The causes in the words of R123 -/

theorem onlyInRow_seq {m m' : Mode} (h : onlyInRow m m' = .seq) : faultable m' ∧ m' ≠ m := by
  cases m <;> cases m' <;> simp [onlyInRow, faultable] at h ⊢

/-- `E_SEQ` by the opcode: each row of the table names the modes that do not permit its commands. -/
theorem permission_seq {i : Instr} {m : Mode} (h : permission i m = .seq) :
    (i.opcode = 0x01 ∨ i.opcode = 0x03 ∨ i.opcode = 0x04) ∧ (m = .loading ∨ m = .done) ∨
    (i.opcode = 0x05 ∨ i.opcode = 0x06) ∧ (m = .idle ∨ m = .done) ∨
    i.opcode = 0x07 ∧ (m = .idle ∨ m = .loading) := by
  cases i with
  | nop | rdreg | srst => cases m <;> cases h
  | wrreg | calcDims | beginLoad =>
    obtain ⟨hf, hne⟩ := onlyInRow_seq h
    exact .inl ⟨by simp [Instr.opcode], hf.resolve_left hne⟩
  | push | encode =>
    obtain ⟨hf, hne⟩ := onlyInRow_seq h
    exact .inr (.inl ⟨by simp [Instr.opcode], hf.imp_right (Or.resolve_left · hne)⟩)
  | rdband =>
    obtain ⟨hidle | hloading | hdone, hne⟩ := onlyInRow_seq h
    · exact .inr (.inr ⟨rfl, .inl hidle⟩)
    · exact .inr (.inr ⟨rfl, .inr hloading⟩)
    · exact absurd hdone hne

/-- Settles O59: the cause of each code (`executeWord_enters_fault`), read from the word's fields. -/
theorem faultCodesAndCauses : Obligations.FaultCodesAndCauses := by
  refine ⟨by decide, fun cmd s t h hs ht => ?_⟩
  obtain ⟨c, rfl, ⟨hlegal, rfl⟩ | ⟨i, hd, hcause⟩⟩ := executeWord_enters_fault h hs ht
  · exact ⟨.illcmd, rfl, by simp [hlegal], nofun, nofun, nofun, nofun, nofun, nofun, nofun⟩
  have hlegal : legal cmd = true := (decode_ok_iff_legal cmd).1 ⟨i, hd⟩
  obtain rfl := encode_of_decode hd
  refine ⟨c, rfl, ⟨?_, by simp [hlegal]⟩, ?_, ?_, ?_, ?_, ?_, ?_, ?_⟩ <;> rintro rfl
  · exact hcause.elim
  · have hop : (encode i).extractLsb' 24 8 = i.opcode := opField_encode i
    exact hop.symm ▸ permission_seq hcause
  · obtain ⟨rfl, hm, hw⟩ := hcause
    exact ⟨rfl, hm, hw⟩
  · obtain ⟨hm, ⟨rfl, hwide⟩ | ⟨rfl, hwide⟩⟩ := hcause
    · exact ⟨hm, .inl ⟨rfl, hwide⟩⟩
    · exact ⟨hm, .inr ⟨rfl, hwide⟩⟩
  · obtain ⟨hm, ⟨rfl, hh⟩ | ⟨rfl, hz⟩⟩ := hcause
    · exact ⟨hm, .inl ⟨rfl, hh⟩⟩
    · exact ⟨hm, .inr ⟨rfl, hz⟩⟩
  · obtain ⟨⟨p, rfl⟩, hm, hfull⟩ := hcause
    exact ⟨opField_encode _, hm, hfull⟩
  · obtain ⟨rfl, hm, hless⟩ := hcause
    exact ⟨rfl, hm, hless⟩
  · obtain ⟨b, idx, rfl, hm, hrange⟩ := hcause
    have hb : (encode (.rdband b idx)).extractLsb' 18 3 = b := bandField_encode_rdband b idx
    have hidx : (encode (.rdband b idx)).extractLsb' 0 18 = idx := indexField_encode_rdband b idx
    exact ⟨opField_encode _, hm, by rwa [hb, hidx]⟩

end Sys2Proof.Machine
end

section
/-! PROOFS, family 70_reset_and_hazards: `rst` in every mode (R139, R140, R142), the step with no word
presented (R150), and the port in mode BUSY (R146). -/

namespace Sys2Proof.Machine

/-! ## The reset signal (R139, R140) -/

theorem step_of_rstHigh {s : State} (hr : rstHigh s = true) : step s = .next (rstStep (tickRst s)) :=
  if_pos hr

/-- Outside mode BUSY the word being presented is dropped (R140). -/
theorem portAfterRst_of_ne_busy {s : State} (hm : s.mode ≠ .busy) : portAfterRst s = s.port.tail := by
  unfold portAfterRst
  cases h : s.mode with
  | busy => exact absurd h hm
  | idle | loading | done | fault => rfl

/-- In mode BUSY the free value decides whether the waiting word is kept (log entry 3). -/
theorem portAfterRst_of_busy {s : State} (hm : s.mode = .busy) :
    portAfterRst s = if Config.keepsWaitingWord (s.epoch + 1) then s.port else s.port.tail := by
  rw [portAfterRst, hm]

theorem portAfterRst_tail_or_port (s : State) :
    portAfterRst s = s.port.tail ∨ portAfterRst s = s.port := by
  by_cases hm : s.mode = .busy
  · rw [portAfterRst_of_busy hm]
    exact (ite_eq_or_eq _ _ _).symm
  · exact .inl (portAfterRst_of_ne_busy hm)

/-- Settles O8: the step is `rstStep`, and the free value of log entry 3 is read in mode BUSY only. -/
theorem rstResetsInAnyMode : Obligations.RstResetsInAnyMode := fun s hr =>
  nextWith_of_eq (step_of_rstHigh hr)
    ⟨portAfterRst_of_ne_busy (s := tickRst s), portAfterRst_tail_or_port (tickRst s), rfl⟩

/-! ## No word presented (R150) -/

theorem portStep_of_no_word {s : State} (hport : s.port = []) : portStep s = .next s := by
  rw [portStep, hport]

/-- Settles O11: the step is the port's, which finds nothing to accept. -/
theorem stepWaitsForAWord : Obligations.StepWaitsForAWord := fun s hr hm hport =>
  (engineStepRule.2 s hm hr).trans (portStep_of_no_word (s := tickRst s) hport)

/-! ## The port in mode BUSY (R146) -/

/-- No engine step touches the presented words, the responses or the record of a fault. -/
theorem engineStep_host {s t : State} (h : engineStep s = .next t) :
    t.port = s.port ∧ t.resp = s.resp ∧ t.err = s.err ∧ t.errcmd = s.errcmd := by
  obtain ⟨-, rfl⟩ := engineStep_next h
  obtain ⟨herr, -, -, -, -, -, herrcmd, -, -, -, -, hresp, hport, -⟩ := advance_frame (engineWrite s)
  exact ⟨hport, hresp, herr, herrcmd⟩

/-- Settles O12: the step is the engine's, and in mode DONE the next one is the port's
(`step_of_port`). -/
theorem busyStallsThePort : Obligations.BusyStallsThePort := by
  intro s t hm hr h
  have hengine : engineStep (tickRst s) = .next t := (step_of_busy hm hr).symm.trans h
  obtain ⟨hport, hresp, herr, herrcmd⟩ := engineStep_host hengine
  refine ⟨hport, hresp, herr, herrcmd, (engineStep_mode hengine).imp_left (·.trans hm), ?_⟩
  intro cmd rest hdone hlow hword
  exact step_of_port hlow (by simp [hdone]) hword

end Sys2Proof.Machine
end
